-- ==== Sys2Proof/Word.lean ====
section
/-!
DEFINITION. The words of the block (spec 00_scope.md R11, R12) and the record in which the host presents one
operation (30_encoding.md R65 to R67): an opcode and typed operands, carried whole.
-/
namespace Sys2Proof

/-- `u8` of R12. -/
abbrev U8 := BitVec 8

/-- `u32` of R12, bit 0 least significant (R11). -/
abbrev U32 := BitVec 32

/-- One operand of an operation record, carried whole as a typed value (R65, R66). -/
inductive Operand where
  /-- a `u8` operand: a PLL index or an output tap -/
  | u8 (v : U8)
  /-- a `u32` operand: a setter value, a nonce, a version word or a mask -/
  | u32 (v : U32)
  /-- an exact rational operand: a frequency or a tolerance, in MHz (R13) -/
  | q (v : Rat)
  deriving DecidableEq, Repr

/-- An operation record: the opcode and the operand fields after it, in the order of R67 (log entry 8). -/
structure OpRecord where
  opcode : U8
  operands : List Operand
  deriving DecidableEq, Repr

/-- The four output taps of a PLL (TAPS = 4, 00_scope.md R7). -/
abbrev Tap := Fin 4

end Sys2Proof
end

