-- ==== Sys2Proof/Config.lean ====
section
/-!
DEFINITION. What is fixed for the life of one block instance (10_state.md R38): the constants of 00_scope.md R7
and R10, and the parameters of R9 and R10, which the spec makes arguments of the model. A configuration is plain
data that the state carries beside the spec's own fields, so a statement about every state is a statement about
every configuration (log entry 1).
-/
namespace Sys2Proof

/-- One PLL of the bank (10_state.md R20): its parameter word and its four output dividers, each stored as a `u8`
restricted to 0..15 (R30). -/
structure Pll where
  param : U32
  od : Vector U8 4
  deriving DecidableEq, Repr

namespace Config

/-- F_IN, in MHz (R7, R8): the input clock of every PLL, a constant that no state holds (10_state.md R23). -/
def fIn : Rat := 25

/-- VCO_HI, in MHz (R7). -/
def vcoThreshold : Rat := 2400

/-- FB_MIN and FB_MAX (R7), the inclusive acceptance bounds of the divider search. -/
def fbMin : Int := 0xA0

/-- FB_MAX (R7). -/
def fbMax : Int := 0xEF

/-- RAMP_STEP, in MHz (R7). -/
def rampStep : Rat := 25 / 4

/-- RAMP_THRESHOLD, in MHz (R7). -/
def rampThreshold : Rat := 380

/-- RAMP_DELAY_SHORT, in milliseconds (R7). -/
def delayShort : Nat := 400

/-- RAMP_DELAY_LONG, in milliseconds (R7). -/
def delayLong : Nat := 2300

/-- HASH_PLL, the PLL whose output is the hash frequency (R10). -/
def hashPll : Nat := 0

/-- HASH_TAP, the tap whose output is the hash frequency (R10). -/
def hashTap : Tap := 0

end Config

/-- The parameters of one instance (00_scope.md R9 and R10). -/
structure Config where
  /-- C, `nonce_core_id_bits` -/
  coreIdBits : Nat
  /-- S, `nonce_small_core_id_bits` -/
  smallCoreIdBits : Nat
  /-- SUPPORTS_VR, `supports_version_rolling` -/
  supportsVr : Bool
  /-- SMALL_CORE_COUNT, small cores per chip; never derived from the two fields below (R9) -/
  smallCoreCount : Nat
  /-- CORE_COUNT; no rule of the block reads it -/
  coreCount : Nat
  /-- CORES_PER_BIG_CORE; no rule of the block reads it -/
  coresPerBigCore : Nat
  /-- VOLTAGE_DOMAIN_COUNT; no rule of the block reads it -/
  voltageDomainCount : Nat
  /-- CHIP_ID, a `u16`; no rule of the block reads it -/
  chipId : BitVec 16
  /-- DEFAULT_VERSION_MASK, the reset value of `vr_mask` -/
  defaultVersionMask : U32
  /-- PLL_DEFAULT_PARAM and PLL_DEFAULT_OD, one entry a PLL, PLL 0 first -/
  pllDefaults : List Pll
  /-- RAMP_TOL, the tolerance of the ramp's searches, in MHz -/
  rampTol : Rat
  /-- CMD_CAP, the most steps one ramp may return -/
  cmdCap : Nat
  /-- UART_PLL; only a constraint on reset values names it -/
  uartPll : Nat
  /-- UART_TAP; only an example names it -/
  uartTap : Tap
  deriving DecidableEq, Repr

namespace Config

/-- PLL_COUNT (R9): the number of PLLs the configuration gives reset values for (log entry 13). -/
def pllCount (c : Config) : Nat := c.pllDefaults.length

/-- The configuration of 95_test_vectors.md section 1, "this spec's test choice, not the source's". The fields that
section does not name, and that no rule reads, are 0. DESIGN CHOICE, log entry 2. -/
def vectors : Config where
  coreIdBits := 8
  smallCoreIdBits := 3
  supportsVr := true
  smallCoreCount := 1000
  coreCount := 0
  coresPerBigCore := 0
  voltageDomainCount := 0
  chipId := 0
  defaultVersionMask := 0x00007FFF
  pllDefaults := [⟨0xC0A80265, #v[0, 0, 0, 0]⟩, ⟨0x40700111, #v[0, 0, 0, 0]⟩]
  rampTol := 1 / 1000
  cmdCap := 1000
  uartPll := 1
  uartTap := 2

end Config

end Sys2Proof
end

