-- ==== Sys2Proof/Machine/ParamWord.lean ====
section
/-!
DEFINITION. The bit fields of the PLL parameter word (30_encoding.md R71, R72; 10_state.md R24), how a setter writes
one field, and the frequency a parameter word stands for (40_pll.md R101).
-/
namespace Sys2Proof.Machine

/-- `w` with its `n` bits from bit `lo` up replaced by `v` and every other bit kept. -/
def setField (w : U32) (lo : Nat) {n : Nat} (v : BitVec n) : U32 :=
  (w &&& ~~~((BitVec.allOnes n).setWidth 32 <<< lo)) ||| (v.setWidth 32 <<< lo)

/-- `param[23:16]`, the feedback divider, stored as itself (R72). -/
def fbField (w : U32) : BitVec 8 := w.extractLsb' 16 8

/-- `param[15:8]`, the reference divider, stored as itself (R72). -/
def refField (w : U32) : BitVec 8 := w.extractLsb' 8 8

/-- `param[7:4]`, post divider 1 minus one (R72). -/
def post1Field (w : U32) : BitVec 4 := w.extractLsb' 4 4

/-- `param[3:0]`, post divider 2 minus one (R72). -/
def post2Field (w : U32) : BitVec 4 := w.extractLsb' 0 4

/-- byte0 to byte3 of a parameter word, the most significant first (20_memory.md R53): the order in which the
surrounding software sends a 32-bit value (R54). -/
def wordBytes (w : U32) : List U8 :=
  [w.extractLsb' 24 8, w.extractLsb' 16 8, w.extractLsb' 8 8, w.extractLsb' 0 8]

/-- `pre_freq(w)` of R101, in MHz. It has a meaning only where the reference field is not 0. -/
def preFreq (w : U32) : Rat :=
  Config.fIn * (fbField w).toNat /
    ((refField w).toNat * ((post1Field w).toNat + 1) * ((post2Field w).toNat + 1))

/-- `tap_freq` of R101, in MHz, or none where the reference field is 0 and the function is undefined. It reads
neither `locked` nor `enabled` nor `vco_hi` nor the reserved bits. -/
def tapFreq (q : Pll) (t : Tap) : Option Rat :=
  if refField q.param = 0 then none else some (preFreq q.param / ((q.od[t]).toNat + 1))

/-- The legal contents of one PLL (10_state.md R25, and R34 for its reset value). -/
def pllLegal (q : Pll) : Bool :=
  decide ((refField q.param = 1 ∨ refField q.param = 2) ∧ (post1Field q.param).toNat ≤ 6 ∧
    (post2Field q.param).toNat ≤ 6 ∧ ∀ t : Tap, (q.od[t]).toNat ≤ 15)

end Sys2Proof.Machine
end

