-- ==== Sys2Proof/Machine/Flags.lean ====
section
/-!
DEFINITION. The flags of the PLL parameter word (10_state.md R24, R26 to R28): where each stands, how it is read
and written, and the condition of the VCO range bit (40_pll.md R108).
-/
namespace Sys2Proof.Machine

/-- `locked`, bit 31 (90_conflicts.md C1). -/
def locked (w : U32) : Bool := w.getLsbD 31

/-- `enabled`, bit 30 (90_conflicts.md C1, C4). -/
def enabled (w : U32) : Bool := w.getLsbD 30

/-- `vco_hi`, bit 28. -/
def vcoHi (w : U32) : Bool := w.getLsbD 28

/-- `param[31] <- b`. -/
def setLocked (w : U32) (b : Bool) : U32 := setField w 31 (BitVec.ofBool b)

/-- `param[30] <- b`. -/
def setEnabled (w : U32) (b : Bool) : U32 := setField w 30 (BitVec.ofBool b)

/-- The VCO range condition `fb * F_IN / ref >= 2400`, exact in Q (R108). -/
def vcoHigh (fb : Int) (ref : Nat) : Bool := decide (Config.vcoThreshold ≤ fb * Config.fIn / ref)

end Sys2Proof.Machine
end

