-- ==== Sys2Proof/Machine/Search.lean ====
section
/-!
DEFINITION. The divider search (40_pll.md R104 to R106) and the packing of its result into the parameter word
(R108).
-/
namespace Sys2Proof.Machine

/-- A candidate of the search: the reference divider, the two post dividers, and the feedback divider as the
unbounded integer that `round` gives (R104). -/
structure Dividers where
  ref : Nat
  p1 : Nat
  p2 : Nat
  fb : Int
  deriving DecidableEq, Repr

/-- `round(x) = floor(x + 1/2)` (00_scope.md R12). -/
def roundHalfUp (x : Rat) : Int := (x + 1 / 2).floor

/-- The post dividers in the order they are visited (R104). -/
def postOrder : List Nat := [7, 6, 5, 4, 3, 2, 1]

/-- The 98 combinations (ref, p1, p2) in visiting order: ref outermost, p2 innermost (R104). -/
def visitOrder : List (Nat × Nat × Nat) :=
  [2, 1].flatMap fun ref => postOrder.flatMap fun p1 => postOrder.map fun p2 => (ref, p1, p2)

/-- The candidate of one combination: `fb = round(target * D / F_IN)` with `D = ref * p1 * p2` (R104). -/
def candidate (target : Rat) (c : Nat × Nat × Nat) : Dividers where
  ref := c.1
  p1 := c.2.1
  p2 := c.2.2
  fb := roundHalfUp (target * (c.1 * c.2.1 * c.2.2 : Nat) / Config.fIn)

/-- `achieved = F_IN * fb / D` (R104), in MHz. -/
def achieved (d : Dividers) : Rat := Config.fIn * d.fb / (d.ref * d.p1 * d.p2 : Nat)

/-- ACCEPT (R105): the unbounded feedback divider in its inclusive bounds, the error strictly below the tolerance,
and p1 >= p2. -/
def accept (target tol : Rat) (d : Dividers) : Bool :=
  decide (Config.fbMin ≤ d.fb ∧ d.fb ≤ Config.fbMax) && decide (|target - achieved d| < tol) && decide (d.p2 ≤ d.p1)

/-- BETTER (R106): a smaller product of post dividers, or an equal one with a smaller p2; none is worse than every
candidate. -/
def better (d : Dividers) : Option Dividers → Bool
  | none => true
  | some b => decide (d.p1 * d.p2 < b.p1 * b.p2 ∨ (d.p1 * d.p2 = b.p1 * b.p2 ∧ d.p2 < b.p2))

/-- One visit of the search: an accepted and better candidate replaces the best so far (R104). -/
def consider (target tol : Rat) (best : Option Dividers) (c : Nat × Nat × Nat) : Option Dividers :=
  if accept target tol (candidate target c) && better (candidate target c) best then some (candidate target c) else best

/-- SEARCH (R104). -/
def search (target tol : Rat) : Option Dividers := visitOrder.foldl (consider target tol) none

/-- PACK (R108): locked and enabled set, the VCO range bit, the dividers; bits 29 and 27:24 zero. -/
def pack (d : Dividers) : U32 :=
  (1#32 <<< 31) ||| (1#32 <<< 30) ||| ((BitVec.ofBool (vcoHigh d.fb d.ref)).setWidth 32 <<< 28) |||
    (BitVec.ofInt 32 d.fb <<< 16) ||| (BitVec.ofNat 32 d.ref <<< 8) |||
    ((BitVec.ofNat 32 (d.p1 - 1) &&& 0xF#32) <<< 4) ||| (BitVec.ofNat 32 (d.p2 - 1) &&& 0xF#32)

end Sys2Proof.Machine
end

