-- ==== Sys2Proof/Syntax.lean ====
section
/-!
DEFINITION. The operation set (30_encoding.md R68): one constructor for each row of spec/opcode_table.json, with
the operand fields of its format (R67) at the types of R66.
-/
namespace Sys2Proof

/-- The 20 operations of the block. Operand names are those of R66: `p` a PLL index, `t` an output tap, `v` a
setter value, `f` a frequency and `tol` a tolerance in MHz, `n` a nonce, `ver` a block-version word, `m` a version
mask. A `u8` or `u32` operand may hold any value of its type: range is checked when the operation runs (R70). -/
inductive Instr where
  | pllFreq (p t : U8)
  | pllParam (p : U8)
  | pllSetfreq (p t : U8) (f tol : Rat)
  | pllLock (p : U8)
  | pllUnlock (p : U8)
  | pllEnable (p : U8)
  | pllDisable (p : U8)
  | pllSetoutdiv (p t : U8) (v : U32)
  | pllSetrefdiv (p : U8) (v : U32)
  | pllSetfbdiv (p : U8) (v : U32)
  | pllSetpost1 (p : U8) (v : U32)
  | pllSetpost2 (p : U8) (v : U32)
  | nonceCoreid (n : U32)
  | nonceScid (n : U32)
  | nonceScidv (ver : U32)
  | nonceChipaddr (n : U32)
  | nonceRolldur
  | chipVrenable (m : U32)
  | chipHashrate
  | chipRamp (f : Rat)
  deriving DecidableEq, Repr

end Sys2Proof
end

