-- ==== Sys2Proof/WellFormed.lean ====
section
/-!
DEFINITION. Which instructions are operations of the block, and which configurations the spec admits.
-/
namespace Sys2Proof

/-- A frequency operand is a value of the type Q>=0 (30_encoding.md R66); the other operand types of R66 admit every
value of their Lean type. -/
def Instr.wellFormed : Instr → Bool
  | .pllFreq _ _ => true
  | .pllParam _ => true
  | .pllSetfreq _ _ f _ => decide (0 ≤ f)
  | .pllLock _ => true
  | .pllUnlock _ => true
  | .pllEnable _ => true
  | .pllDisable _ => true
  | .pllSetoutdiv _ _ _ => true
  | .pllSetrefdiv _ _ => true
  | .pllSetfbdiv _ _ => true
  | .pllSetpost1 _ _ => true
  | .pllSetpost2 _ _ => true
  | .nonceCoreid _ => true
  | .nonceScid _ => true
  | .nonceScidv _ => true
  | .nonceChipaddr _ => true
  | .nonceRolldur => true
  | .chipVrenable _ => true
  | .chipHashrate => true
  | .chipRamp f => decide (0 ≤ f)

/-- The nonce fields fit the nonce (00_scope.md R9): 1 <= C and C + S + 8 <= 32. -/
def Config.nonceFits (c : Config) : Bool :=
  decide (1 ≤ c.coreIdBits ∧ c.coreIdBits + c.smallCoreIdBits + 8 ≤ 32)

/-- The reset values are legal (10_state.md R34). -/
def Config.defaultsLegal (c : Config) : Bool := c.pllDefaults.all Machine.pllLegal

/-- The hash PLL exists and its reset output is 50 MHz (00_scope.md R9, 10_state.md R35). -/
def Config.hashDefault (c : Config) : Bool :=
  decide ((c.pllDefaults[Config.hashPll]?).bind (Machine.tapFreq · Config.hashTap) = some 50)

/-- The UART PLL exists and is enabled at reset (10_state.md R36). -/
def Config.uartDefault (c : Config) : Bool :=
  decide ((c.pllDefaults[c.uartPll]?).map (·.param.getLsbD 30) = some true)

/-- RAMP_TOL > 0 and CMD_CAP >= 1 (00_scope.md R10). -/
def Config.rampParameters (c : Config) : Bool := decide (0 < c.rampTol ∧ 1 ≤ c.cmdCap)

/-- The configurations the spec admits: every constraint of 00_scope.md R9 and R10 and 10_state.md R34 to R36. -/
def Config.wellFormed (c : Config) : Bool :=
  c.nonceFits && c.defaultsLegal && c.hashDefault && c.uartDefault && c.rampParameters

end Sys2Proof
end

