-- ==== Sys2Proof/Decode.lean ====
section
/-!
DEFINITION. The decoder of operation records, total and rejecting by name (30_encoding.md R68 to R70, R78), and
after it the encoder. The spec packs no operand into bits (R65): the opcode byte alone names the format, and each
operand is a typed value.
-/
namespace Sys2Proof

/-- The formats of R67. -/
inductive Format where
  | z | p | pt | pv | ptv | ptf | n | ver | m | f
  deriving DecidableEq, Repr

/-- The operand types of R66. -/
inductive OperandKind where
  | u8 | u32 | qNonneg | q
  deriving DecidableEq, Repr

/-- What the decoder makes of a record. -/
inductive Decoded where
  /-- an operation of the block -/
  | op (i : Instr)
  /-- the opcode names no operation: the block raises IllegalOperation (R69) -/
  | illegalOpcode
  /-- the operands have not the shape and types of the opcode's format: no operation, refused before the block (R70) -/
  | malformed
  deriving DecidableEq, Repr

/-- One row of R68: the opcode, the mnemonic (R79 writes it in lower case) and the format. -/
structure OpRow where
  code : U8
  asm : String
  format : Format
  deriving DecidableEq, Repr

/-- The PLL rows of the opcode map (R68). -/
def pllRows : List OpRow :=
  [⟨0x10, "pll.freq", .pt⟩, ⟨0x11, "pll.param", .p⟩, ⟨0x12, "pll.setfreq", .ptf⟩, ⟨0x13, "pll.lock", .p⟩,
   ⟨0x14, "pll.unlock", .p⟩, ⟨0x15, "pll.enable", .p⟩, ⟨0x16, "pll.disable", .p⟩, ⟨0x17, "pll.setoutdiv", .ptv⟩,
   ⟨0x18, "pll.setrefdiv", .pv⟩, ⟨0x19, "pll.setfbdiv", .pv⟩, ⟨0x1A, "pll.setpost1", .pv⟩,
   ⟨0x1B, "pll.setpost2", .pv⟩]

/-- The decoder and chip rows of the opcode map (R68). -/
def nonceAndChipRows : List OpRow :=
  [⟨0x20, "nonce.coreid", .n⟩, ⟨0x21, "nonce.scid", .n⟩, ⟨0x22, "nonce.scidv", .ver⟩,
   ⟨0x23, "nonce.chipaddr", .n⟩, ⟨0x24, "nonce.rolldur", .z⟩, ⟨0x30, "chip.vrenable", .m⟩,
   ⟨0x31, "chip.hashrate", .z⟩, ⟨0x32, "chip.ramp", .f⟩]

/-- The opcode map (R68). -/
def opRows : List OpRow := pllRows ++ nonceAndChipRows

/-- The format an opcode names, none for an illegal opcode (R69, R78). -/
def formatOf (code : U8) : Option Format := (opRows.find? (·.code = code)).map (·.format)

/-- The operand types of a format, in order (R66, R67). -/
def Format.kinds : Format → List OperandKind
  | .z => []
  | .p => [.u8]
  | .pt => [.u8, .u8]
  | .pv => [.u8, .u32]
  | .ptv => [.u8, .u8, .u32]
  | .ptf => [.u8, .u8, .qNonneg, .q]
  | .n => [.u32]
  | .ver => [.u32]
  | .m => [.u32]
  | .f => [.qNonneg]

/-- Whether an operand is a value of a type (R66; a negative rational is no value of Q>=0, log entry 7). -/
def OperandKind.admits : OperandKind → Operand → Bool
  | .u8, .u8 _ => true
  | .u32, .u32 _ => true
  | .qNonneg, .q v => decide (0 ≤ v)
  | .q, .q _ => true
  | _, _ => false

/-- Whether operands have the shape and types of a list of types: none missing, none extra, each of its type (R70). -/
def conforms : List OperandKind → List Operand → Bool
  | [], [] => true
  | k :: ks, o :: os => k.admits o && conforms ks os
  | _, _ => false

/-- Format Z. -/
def readZ (ops : List Operand) (i : Instr) : Decoded :=
  match ops with
  | [] => .op i
  | _ => .malformed

/-- Format P. -/
def readP (ops : List Operand) (mk : U8 → Instr) : Decoded :=
  match ops with
  | [.u8 p] => .op (mk p)
  | _ => .malformed

/-- Format PT. -/
def readPT (ops : List Operand) (mk : U8 → U8 → Instr) : Decoded :=
  match ops with
  | [.u8 p, .u8 t] => .op (mk p t)
  | _ => .malformed

/-- Format PV. -/
def readPV (ops : List Operand) (mk : U8 → U32 → Instr) : Decoded :=
  match ops with
  | [.u8 p, .u32 v] => .op (mk p v)
  | _ => .malformed

/-- Format PTV. -/
def readPTV (ops : List Operand) (mk : U8 → U8 → U32 → Instr) : Decoded :=
  match ops with
  | [.u8 p, .u8 t, .u32 v] => .op (mk p t v)
  | _ => .malformed

/-- Format PTF: the frequency is a value of Q>=0, the tolerance any value of Q. -/
def readPTF (ops : List Operand) (mk : U8 → U8 → Rat → Rat → Instr) : Decoded :=
  match ops with
  | [.u8 p, .u8 t, .q f, .q tol] => if 0 ≤ f then .op (mk p t f tol) else .malformed
  | _ => .malformed

/-- Formats N, VER and M: one `u32`. -/
def readW (ops : List Operand) (mk : U32 → Instr) : Decoded :=
  match ops with
  | [.u32 w] => .op (mk w)
  | _ => .malformed

/-- Format F: a value of Q>=0. -/
def readF (ops : List Operand) (mk : Rat → Instr) : Decoded :=
  match ops with
  | [.q f] => if 0 ≤ f then .op (mk f) else .malformed
  | _ => .malformed

/-- The decoder (R68, R69, R70). -/
def decode (r : OpRecord) : Decoded :=
  match r.opcode with
  | 0x10#8 => readPT r.operands .pllFreq
  | 0x11#8 => readP r.operands .pllParam
  | 0x12#8 => readPTF r.operands .pllSetfreq
  | 0x13#8 => readP r.operands .pllLock
  | 0x14#8 => readP r.operands .pllUnlock
  | 0x15#8 => readP r.operands .pllEnable
  | 0x16#8 => readP r.operands .pllDisable
  | 0x17#8 => readPTV r.operands .pllSetoutdiv
  | 0x18#8 => readPV r.operands .pllSetrefdiv
  | 0x19#8 => readPV r.operands .pllSetfbdiv
  | 0x1A#8 => readPV r.operands .pllSetpost1
  | 0x1B#8 => readPV r.operands .pllSetpost2
  | 0x20#8 => readW r.operands .nonceCoreid
  | 0x21#8 => readW r.operands .nonceScid
  | 0x22#8 => readW r.operands .nonceScidv
  | 0x23#8 => readW r.operands .nonceChipaddr
  | 0x24#8 => readZ r.operands .nonceRolldur
  | 0x30#8 => readW r.operands .chipVrenable
  | 0x31#8 => readZ r.operands .chipHashrate
  | 0x32#8 => readF r.operands .chipRamp
  | _ => .illegalOpcode

/-- The record of an instruction (R67, R68). -/
def encode : Instr → OpRecord
  | .pllFreq p t => ⟨0x10, [.u8 p, .u8 t]⟩
  | .pllParam p => ⟨0x11, [.u8 p]⟩
  | .pllSetfreq p t f tol => ⟨0x12, [.u8 p, .u8 t, .q f, .q tol]⟩
  | .pllLock p => ⟨0x13, [.u8 p]⟩
  | .pllUnlock p => ⟨0x14, [.u8 p]⟩
  | .pllEnable p => ⟨0x15, [.u8 p]⟩
  | .pllDisable p => ⟨0x16, [.u8 p]⟩
  | .pllSetoutdiv p t v => ⟨0x17, [.u8 p, .u8 t, .u32 v]⟩
  | .pllSetrefdiv p v => ⟨0x18, [.u8 p, .u32 v]⟩
  | .pllSetfbdiv p v => ⟨0x19, [.u8 p, .u32 v]⟩
  | .pllSetpost1 p v => ⟨0x1A, [.u8 p, .u32 v]⟩
  | .pllSetpost2 p v => ⟨0x1B, [.u8 p, .u32 v]⟩
  | .nonceCoreid n => ⟨0x20, [.u32 n]⟩
  | .nonceScid n => ⟨0x21, [.u32 n]⟩
  | .nonceScidv ver => ⟨0x22, [.u32 ver]⟩
  | .nonceChipaddr n => ⟨0x23, [.u32 n]⟩
  | .nonceRolldur => ⟨0x24, []⟩
  | .chipVrenable m => ⟨0x30, [.u32 m]⟩
  | .chipHashrate => ⟨0x31, []⟩
  | .chipRamp f => ⟨0x32, [.q f]⟩

/-- The operand of a type whose value is zero. -/
def OperandKind.zero : OperandKind → Operand
  | .u8 => .u8 0
  | .u32 => .u32 0
  | .qNonneg => .q 0
  | .q => .q 0

/-- The record that a word of the opcode table stands for: the table gives a row its 8 opcode bits only, and every
operand is zero (log entry 9). -/
def tableRecord (w : Nat) : OpRecord where
  opcode := BitVec.ofNat 8 w
  operands := match formatOf (BitVec.ofNat 8 w) with
    | some fmt => fmt.kinds.map OperandKind.zero
    | none => []

/-- What the decoder reads from a word numbered as spec/opcode_table.json numbers it: none where it refuses. -/
def decodeTableWord (nbits w : Nat) : Option Instr :=
  if nbits = 8 ∧ w < 256 then
    match decode (tableRecord w) with
    | .op i => some i
    | .illegalOpcode => none
    | .malformed => none
  else none

end Sys2Proof
end

