-- ==== Sys2Proof/Machine/State.lean ====
section
/-!
DEFINITION. The state of one block instance (10_state.md R20), its fault record (60_exceptions.md R200, R201), its
responses (30_encoding.md R77) and its reset (10_state.md R34).
-/
namespace Sys2Proof.Machine

/-- The fault codes of 60_exceptions.md R201. -/
inductive FaultCode where
  /-- 1: an opcode outside 30_encoding.md R68 -/
  | illegalOperation
  /-- 2: a PLL index, an output tap or a setter value outside its range -/
  | operandRange
  /-- 3: the divider search accepts no candidate (PLL.SETFREQ, CHIP.RAMP) -/
  | noDividerFound
  /-- 4: CHIP.VRENABLE on a generation without version rolling -/
  | versionRollingUnsupported
  /-- 5: a zero version mask -/
  | zeroVersionMask
  /-- 6: NONCE.SCID or NONCE.SCIDV in the other addressing mode -/
  | modeMismatch
  /-- 7: NONCE.ROLLDUR at hash frequency 0 -/
  | zeroHashFrequency
  /-- 8: a ramp that needs more than CMD_CAP steps -/
  | capacityExceeded
  /-- 9: a reference divider field of 0; unreachable (10_state.md R25) -/
  | divideByZero
  deriving DecidableEq, Repr

/-- What a fault records (R200): the code, the operation record that faulted, and inside a ramp the value of the
ramp's `cur`, in MHz. -/
structure FaultRecord where
  code : FaultCode
  op : OpRecord
  detail : Option Rat
  deriving DecidableEq, Repr

/-- One step of a ramp's result (42_chip_and_ramp.md R163): the parameter word to transmit and the delay after it,
in milliseconds. -/
structure RampStep where
  word : U32
  delayMs : Nat
  deriving DecidableEq, Repr

/-- What an operation returns on success (30_encoding.md R77). -/
inductive Result where
  /-- the setters, PLL.SETFREQ and CHIP.VRENABLE: no value -/
  | ok
  /-- PLL.FREQ: MHz, exact -/
  | frequency (mhz : Rat)
  /-- PLL.PARAM: the parameter word -/
  | param (w : U32)
  /-- NONCE.COREID -/
  | coreId (c : U32)
  /-- NONCE.SCID and NONCE.SCIDV -/
  | smallCoreId (k : U32)
  /-- NONCE.CHIPADDR -/
  | chipAddress (a : U8)
  /-- NONCE.ROLLDUR: seconds, exact -/
  | duration (seconds : Rat)
  /-- CHIP.HASHRATE: hashes per second, exact -/
  | hashRate (perSecond : Rat)
  /-- CHIP.RAMP: the steps in the order to transmit them (R166) -/
  | rampSteps (steps : List RampStep)
  deriving DecidableEq, Repr

/-- The block's response to one operation (30_encoding.md R65): a result or a fault record. -/
inductive Response where
  | result (r : Result)
  | fault (r : FaultRecord)
  deriving DecidableEq, Repr

/-- The state of one block instance. The fields `plls`, `vrEn`, `vrMask` and `fault` are the record of 10_state.md
R20; `cfg`, `response` and `pending` are the model's own (log entries 1, 3 and 4). -/
structure State where
  /-- the parameters of this instance; no step writes them (10_state.md R38) -/
  cfg : Config
  /-- `pll[0 .. PLL_COUNT-1]` -/
  plls : List Pll
  /-- `vr_en` (R31) -/
  vrEn : Bool
  /-- `vr_mask` (R31) -/
  vrMask : U32
  /-- the sticky fault record (R33) -/
  fault : Option FaultRecord
  /-- what stands on the response port: the response to the last operation -/
  response : Option Response
  /-- the operation records the host has yet to present, oldest first (R21) -/
  pending : List OpRecord
  deriving DecidableEq, Repr

/-- Why a step stops with a fault. It has NO constructor: a fault of the spec stops no machine but is recorded in the
state, and the block goes on answering (R200, R202), so no step ends in `Host.Outcome.fault` (log entry 10). -/
inductive Fault where
  deriving DecidableEq, Repr

/-- Why something is refused. -/
inductive Refusal where
  /-- Raised by an arm of `exec` whose instruction has no meaning yet. Safe. No arm raises it. -/
  | notModelled (mnemonic : String)
  /-- Raised by `step` on a record whose operands have not the shape and types of its opcode's format: "not an
  operation of this block", refused before it reaches the block (30_encoding.md R70). Safe. -/
  | malformedRecord
  /-- Raised by `construct`, never by `step`, for an input clock other than 25 MHz (70_reset_and_hazards.md R231).
  Safe. -/
  | unsupportedInputClock
  deriving DecidableEq, Repr

/-- The state of a new instance of configuration `c` (R34, 70_reset_and_hazards.md R230): nothing answered and
nothing presented yet. -/
def State.resetOf (c : Config) : State where
  cfg := c
  plls := c.pllDefaults
  vrEn := false
  vrMask := c.defaultVersionMask
  fault := none
  response := none
  pending := []

/-- The machine right after reset, at the configuration of 95_test_vectors.md section 1 (log entry 2). -/
def State.reset : State := State.resetOf Config.vectors

end Sys2Proof.Machine
end

