-- ==== Sys2Proof/Machine/Ops.lean ====
section
/-!
DEFINITION. The shared operations: writes of block state (00_scope.md R12), the one way an operation runs and ends,
and the one way a fault is taken (60_exceptions.md R200, R202). There is no return from a fault (R207).
-/
namespace Sys2Proof.Machine

/-- The number of a fault code (60_exceptions.md R201). -/
def FaultCode.number : FaultCode → Nat
  | .illegalOperation => 1
  | .operandRange => 2
  | .noDividerFound => 3
  | .versionRollingUnsupported => 4
  | .zeroVersionMask => 5
  | .modeMismatch => 6
  | .zeroHashFrequency => 7
  | .capacityExceeded => 8
  | .divideByZero => 9

/-- How the pseudocode of an operation ends, with the state its writes have made. -/
inductive OpEnd where
  /-- `result <- r` -/
  | done (r : Result) (s : State)
  /-- `raise Fault(code)`, with the detail R200 gives it -/
  | raised (code : FaultCode) (detail : Option Rat) (s : State)
  deriving DecidableEq, Repr

/-- `pll[p].param <- w`. -/
def setParam (s : State) (p : Nat) (w : U32) : State :=
  { s with plls := s.plls.modify p fun q => { q with param := w } }

/-- `pll[p].od[t] <- v`. -/
def setOutDiv (s : State) (p : Nat) (t : Tap) (v : U8) : State :=
  { s with plls := s.plls.modify p fun q => { q with od := q.od.set t v } }

/-- `vr_en <- true; vr_mask <- m`. -/
def setVersionRolling (s : State) (m : U32) : State := { s with vrEn := true, vrMask := m }

/-- The response port after the operation. -/
def respond (s : State) (r : Response) : State := { s with response := some r }

/-- Taking a fault (R200): the record is kept and is the response; nothing else is written. -/
def takeFault (s : State) (r : FaultRecord) : State := { s with fault := some r, response := some (.fault r) }

/-- One operation presented to the block, `rec` its record and `body` its pseudocode. A block that has faulted
refuses it, writes no state and repeats the stored record (R202). -/
def transact (rec : OpRecord) (body : State → OpEnd) (s : State) : Host.Outcome State Fault Refusal :=
  match s.fault with
  | some r => .next (respond s (.fault r))
  | none =>
    match body s with
    | .done r t => .next (respond t (.result r))
    | .raised code detail t => .next (takeFault t ⟨code, rec, detail⟩)

/-- A record whose opcode names no operation (30_encoding.md R69). -/
def illegalOperation (rec : OpRecord) (s : State) : Host.Outcome State Fault Refusal :=
  transact rec (fun t => .raised .illegalOperation none t) s

/-- The hash frequency in MHz (42_chip_and_ramp.md R162), none where R101 leaves it undefined. A state with no PLL,
which no instance is (00_scope.md R9), has none (log entry 15). -/
def hashFrequency (s : State) : Option Rat := (s.plls[Config.hashPll]?).bind (tapFreq · Config.hashTap)

/-- An operation that needs the hash frequency: DivideByZero where it is undefined (R101). -/
def withHashFrequency (s : State) (k : Rat → OpEnd) : OpEnd :=
  match hashFrequency s with
  | none => .raised .divideByZero none s
  | some f => k f

/-- MHz to Hz (41_nonce_decoder.md R145). -/
def hertz (mhz : Rat) : Rat := mhz * 10 ^ 6

/-- `tzc(x)`: the index of the lowest set bit, 32 for 0 (00_scope.md R12). -/
def tzc (x : U32) : Nat := ((List.range 32).find? fun i => x.getLsbD i).getD 32

/-- `popcount(x)`: the number of set bits (00_scope.md R12). -/
def popcount (x : U32) : Nat := (List.range 32).countP fun i => x.getLsbD i

end Sys2Proof.Machine
end

