-- ==== Sys2Proof/Machine/Operands.lean ====
section
/-!
DEFINITION. The operand forms of the operations and the range checks made on them when the operation runs
(30_encoding.md R66, 40_pll.md R100, 60_exceptions.md R203).
-/
namespace Sys2Proof.Machine

/-- `check p < PLL_COUNT`, then the rest of the operation on PLL p (R100). The bank holds PLL_COUNT PLLs (log
entry 13). -/
def withPll (s : State) (p : U8) (k : Pll → OpEnd) : OpEnd :=
  match s.plls[p.toNat]? with
  | none => .raised .operandRange none s
  | some q => k q

/-- `check t < 4` (R100). -/
def withTap (s : State) (t : U8) (k : Tap → OpEnd) : OpEnd :=
  if h : t.toNat < 4 then k ⟨t.toNat, h⟩ else .raised .operandRange none s

/-- A setter value that must lie in `lo .. hi` (R116 to R120). -/
def withValue (s : State) (v : U32) (lo hi : Nat) (k : OpEnd) : OpEnd :=
  if lo ≤ v.toNat ∧ v.toNat ≤ hi then k else .raised .operandRange none s

/-- The output divider an in-range value v in 0..15 stands for (R116). -/
def outDivOf (v : U32) : U8 := v.setWidth 8

/-- The reference or feedback field an in-range value stands for: the value itself (R117, R118; 30_encoding.md R72). -/
def byteOf (v : U32) : BitVec 8 := v.setWidth 8

/-- The post divider field an in-range value v in 1..7 stands for: `v - 1` (R119, R120; 30_encoding.md R72). -/
def postNibbleOf (v : U32) : BitVec 4 := (v - 1).setWidth 4

/-- `MASK_S = (1 << S) - 1` (41_nonce_decoder.md). -/
def smallCoreMask (s : State) : U32 := (1#32 <<< s.cfg.smallCoreIdBits) - 1

end Sys2Proof.Machine
end

