-- ==== Sys2Proof/Machine/Chip.lean ====
section
/-!
DEFINITION. The meanings of the chip operations (42_chip_and_ramp.md R160, R161, R163).
-/
namespace Sys2Proof.Machine

/-- CHIP.VRENABLE m (R160). -/
def chipVrenableOp (m : U32) (s : State) : OpEnd :=
  if !s.cfg.supportsVr then .raised .versionRollingUnsupported none s
  else if m = 0 then .raised .zeroVersionMask none s
  else .done .ok (setVersionRolling s m)

/-- CHIP.VRENABLE presented to the block (60_exceptions.md R200, R202). -/
def execChipVrenable (m : U32) (s : State) : Host.Outcome State Fault Refusal :=
  transact (encode (.chipVrenable m)) (chipVrenableOp m) s

/-- CHIP.HASHRATE (R161). -/
def chipHashrateOp (s : State) : OpEnd :=
  withHashFrequency s fun f =>
    .done (.hashRate (hertz f * s.cfg.smallCoreCount)) s

/-- CHIP.HASHRATE presented to the block (60_exceptions.md R200, R202). -/
def execChipHashrate (s : State) : Host.Outcome State Fault Refusal :=
  transact (encode .chipHashrate) chipHashrateOp s

/-- The loop of R163, with `room` steps left of CMD_CAP. `cur` is the nominal frequency of the last step, `long` the
long-delay flag, `steps` what has been generated. The clamp reaches the target, so the loop ends (R164). -/
def rampLoop (target tol : Rat) : Nat → Rat → Bool → List RampStep → State → OpEnd
  | 0, cur, _, _, s => .raised .capacityExceeded (some cur) s
  | room + 1, cur, long, steps, s =>
    let cur' := min (cur + Config.rampStep) target
    match search cur' tol with
    | none => .raised .noDividerFound (some cur') s
    | some d =>
      let s' := setParam s Config.hashPll (pack d)
      let long' := if Config.rampThreshold < cur' then !long else long
      let steps' := steps ++ [⟨pack d, if long' then Config.delayLong else Config.delayShort⟩]
      if cur' = target then .done (.rampSteps steps') s' else rampLoop target tol room cur' long' steps' s'

/-- CHIP.RAMP f (R163): from the current hash frequency, the flag false and no step generated. -/
def chipRampOp (f : Rat) (s : State) : OpEnd :=
  withHashFrequency s fun start =>
    rampLoop f s.cfg.rampTol s.cfg.cmdCap start false [] s

/-- CHIP.RAMP presented to the block (60_exceptions.md R200, R202). -/
def execChipRamp (f : Rat) (s : State) : Host.Outcome State Fault Refusal :=
  transact (encode (.chipRamp f)) (chipRampOp f) s

end Sys2Proof.Machine
end

