-- ==== Sys2Proof/Machine/Nonce.lean ====
section
/-!
DEFINITION. The meanings of the nonce decoder operations (41_nonce_decoder.md R141 to R145). They write no state
(R140). C and S are the configuration's; a configuration outside `Config.wellFormed` has no meaning in the spec (log
entry 16).
-/
namespace Sys2Proof.Machine

/-- NONCE.COREID n (R141): the top C bits, in either mode. -/
def nonceCoreidOp (n : U32) (s : State) : OpEnd :=
  .done (.coreId (n >>> (32 - s.cfg.coreIdBits))) s

/-- NONCE.COREID presented to the block (60_exceptions.md R200, R202). -/
def execNonceCoreid (n : U32) (s : State) : Host.Outcome State Fault Refusal :=
  transact (encode (.nonceCoreid n)) (nonceCoreidOp n) s

/-- NONCE.SCID n (R142): the S bits below the core id, defined with version rolling off only. -/
def nonceScidOp (n : U32) (s : State) : OpEnd :=
  if s.vrEn then .raised .modeMismatch none s
  else .done (.smallCoreId
      ((n >>> (32 - s.cfg.coreIdBits - s.cfg.smallCoreIdBits)) &&& smallCoreMask s)) s

/-- NONCE.SCID presented to the block (60_exceptions.md R200, R202). -/
def execNonceScid (n : U32) (s : State) : Host.Outcome State Fault Refusal :=
  transact (encode (.nonceScid n)) (nonceScidOp n) s

/-- NONCE.SCIDV ver (R143): S bits of the version word from the lowest set bit of the mask up, defined with version
rolling on only. -/
def nonceScidvOp (ver : U32) (s : State) : OpEnd :=
  if !s.vrEn then .raised .modeMismatch none s
  else if s.vrMask = 0 then .raised .zeroVersionMask none s
  else .done (.smallCoreId ((ver >>> tzc s.vrMask) &&& smallCoreMask s)) s

/-- NONCE.SCIDV presented to the block (60_exceptions.md R200, R202). -/
def execNonceScidv (ver : U32) (s : State) : Host.Outcome State Fault Refusal :=
  transact (encode (.nonceScidv ver)) (nonceScidvOp ver) s

/-- NONCE.CHIPADDR n (R144): 8 bits, S positions higher with version rolling on. -/
def nonceChipaddrOp (n : U32) (s : State) : OpEnd :=
  if s.vrEn then .done (.chipAddress ((n >>> (32 - s.cfg.coreIdBits - 8)).setWidth 8)) s
  else .done (.chipAddress ((n >>> (32 - s.cfg.coreIdBits - s.cfg.smallCoreIdBits - 8)).setWidth 8)) s

/-- NONCE.CHIPADDR presented to the block (60_exceptions.md R200, R202). -/
def execNonceChipaddr (n : U32) (s : State) : Host.Outcome State Fault Refusal :=
  transact (encode (.nonceChipaddr n)) (nonceChipaddrOp n) s

/-- NONCE.ROLLDUR (R145): the search space over the hash frequency in Hz, in seconds. -/
def nonceRolldurOp (s : State) : OpEnd :=
  withHashFrequency s fun f =>
    if hertz f = 0 then .raised .zeroHashFrequency none s
    else if s.vrEn then
      if s.vrMask = 0 then .raised .zeroVersionMask none s
      else .done (.duration
        (2 ^ (32 - s.cfg.coreIdBits - 8 + popcount s.vrMask - s.cfg.smallCoreIdBits) / hertz f)) s
    else .done (.duration (2 ^ (32 - s.cfg.coreIdBits - s.cfg.smallCoreIdBits - 8) / hertz f)) s

/-- NONCE.ROLLDUR presented to the block (60_exceptions.md R200, R202). -/
def execNonceRolldur (s : State) : Host.Outcome State Fault Refusal :=
  transact (encode .nonceRolldur) nonceRolldurOp s

end Sys2Proof.Machine
end

