-- ==== Sys2Proof/Machine/Pll.lean ====
section
/-!
DEFINITION. The meanings of the PLL operations (40_pll.md R102, R103, R110, R112 to R120).
-/
namespace Sys2Proof.Machine

/-- PLL.FREQ p, t (R102). -/
def pllFreqOp (p t : U8) (s : State) : OpEnd :=
  withPll s p fun q => withTap s t fun tap =>
    match tapFreq q tap with
    | none => .raised .divideByZero none s
    | some f => .done (.frequency f) s

/-- PLL.FREQ presented to the block (60_exceptions.md R200, R202). -/
def execPllFreq (p t : U8) (s : State) : Host.Outcome State Fault Refusal :=
  transact (encode (.pllFreq p t)) (pllFreqOp p t) s

/-- PLL.PARAM p (R103). -/
def pllParamOp (p : U8) (s : State) : OpEnd :=
  withPll s p fun q => .done (.param q.param) s

/-- PLL.PARAM presented to the block (60_exceptions.md R200, R202). -/
def execPllParam (p : U8) (s : State) : Host.Outcome State Fault Refusal :=
  transact (encode (.pllParam p)) (pllParamOp p) s

/-- PLL.SETFREQ p, t, f, tol (R110): the tap is range-checked and does not enter the search (R122). -/
def pllSetfreqOp (p t : U8) (f tol : Rat) (s : State) : OpEnd :=
  withPll s p fun _ => withTap s t fun _ =>
    match search f tol with
    | none => .raised .noDividerFound none s
    | some d => .done .ok (setParam s p.toNat (pack d))

/-- PLL.SETFREQ presented to the block (60_exceptions.md R200, R202). -/
def execPllSetfreq (p t : U8) (f tol : Rat) (s : State) : Host.Outcome State Fault Refusal :=
  transact (encode (.pllSetfreq p t f tol)) (pllSetfreqOp p t f tol) s

/-- PLL.LOCK p (R112). -/
def pllLockOp (p : U8) (s : State) : OpEnd :=
  withPll s p fun q => .done .ok (setParam s p.toNat (setLocked q.param true))

/-- PLL.LOCK presented to the block (60_exceptions.md R200, R202). -/
def execPllLock (p : U8) (s : State) : Host.Outcome State Fault Refusal :=
  transact (encode (.pllLock p)) (pllLockOp p) s

/-- PLL.UNLOCK p (R113). -/
def pllUnlockOp (p : U8) (s : State) : OpEnd :=
  withPll s p fun q => .done .ok (setParam s p.toNat (setLocked q.param false))

/-- PLL.UNLOCK presented to the block (60_exceptions.md R200, R202). -/
def execPllUnlock (p : U8) (s : State) : Host.Outcome State Fault Refusal :=
  transact (encode (.pllUnlock p)) (pllUnlockOp p) s

/-- PLL.ENABLE p (R114). -/
def pllEnableOp (p : U8) (s : State) : OpEnd :=
  withPll s p fun q => .done .ok (setParam s p.toNat (setEnabled q.param true))

/-- PLL.ENABLE presented to the block (60_exceptions.md R200, R202). -/
def execPllEnable (p : U8) (s : State) : Host.Outcome State Fault Refusal :=
  transact (encode (.pllEnable p)) (pllEnableOp p) s

/-- PLL.DISABLE p (R115). -/
def pllDisableOp (p : U8) (s : State) : OpEnd :=
  withPll s p fun q => .done .ok (setParam s p.toNat (setEnabled q.param false))

/-- PLL.DISABLE presented to the block (60_exceptions.md R200, R202). -/
def execPllDisable (p : U8) (s : State) : Host.Outcome State Fault Refusal :=
  transact (encode (.pllDisable p)) (pllDisableOp p) s

/-- PLL.SETOUTDIV p, t, v (R116). -/
def pllSetoutdivOp (p t : U8) (v : U32) (s : State) : OpEnd :=
  withPll s p fun _ => withTap s t fun tap =>
    withValue s v 0 15 (.done .ok (setOutDiv s p.toNat tap (outDivOf v)))

/-- PLL.SETOUTDIV presented to the block (60_exceptions.md R200, R202). -/
def execPllSetoutdiv (p t : U8) (v : U32) (s : State) : Host.Outcome State Fault Refusal :=
  transact (encode (.pllSetoutdiv p t v)) (pllSetoutdivOp p t v) s

/-- PLL.SETREFDIV p, v (R117): `vco_hi` is not recomputed (10_state.md R28). -/
def pllSetrefdivOp (p : U8) (v : U32) (s : State) : OpEnd :=
  withPll s p fun q =>
    withValue s v 1 2 (.done .ok (setParam s p.toNat (setField q.param 8 (byteOf v))))

/-- PLL.SETREFDIV presented to the block (60_exceptions.md R200, R202). -/
def execPllSetrefdiv (p : U8) (v : U32) (s : State) : Host.Outcome State Fault Refusal :=
  transact (encode (.pllSetrefdiv p v)) (pllSetrefdivOp p v) s

/-- PLL.SETFBDIV p, v (R118): the whole range 0..255, and `vco_hi` is not recomputed (10_state.md R28). -/
def pllSetfbdivOp (p : U8) (v : U32) (s : State) : OpEnd :=
  withPll s p fun q =>
    withValue s v 0 255 (.done .ok (setParam s p.toNat (setField q.param 16 (byteOf v))))

/-- PLL.SETFBDIV presented to the block (60_exceptions.md R200, R202). -/
def execPllSetfbdiv (p : U8) (v : U32) (s : State) : Host.Outcome State Fault Refusal :=
  transact (encode (.pllSetfbdiv p v)) (pllSetfbdivOp p v) s

/-- PLL.SETPOST1 p, v (R119). -/
def pllSetpost1Op (p : U8) (v : U32) (s : State) : OpEnd :=
  withPll s p fun q =>
    withValue s v 1 7 (.done .ok (setParam s p.toNat (setField q.param 4 (postNibbleOf v))))

/-- PLL.SETPOST1 presented to the block (60_exceptions.md R200, R202). -/
def execPllSetpost1 (p : U8) (v : U32) (s : State) : Host.Outcome State Fault Refusal :=
  transact (encode (.pllSetpost1 p v)) (pllSetpost1Op p v) s

/-- PLL.SETPOST2 p, v (R120). -/
def pllSetpost2Op (p : U8) (v : U32) (s : State) : OpEnd :=
  withPll s p fun q =>
    withValue s v 1 7 (.done .ok (setParam s p.toNat (setField q.param 0 (postNibbleOf v))))

/-- PLL.SETPOST2 presented to the block (60_exceptions.md R200, R202). -/
def execPllSetpost2 (p : U8) (v : U32) (s : State) : Host.Outcome State Fault Refusal :=
  transact (encode (.pllSetpost2 p v)) (pllSetpost2Op p v) s

end Sys2Proof.Machine
end

