-- ==== Sys2Proof/Machine/Dispatch.lean ====
section
/-!
DEFINITION. What each operation does: one arm a constructor (30_encoding.md R68).
-/
namespace Sys2Proof.Machine

def exec (i : Instr) (s : State) : Host.Outcome State Fault Refusal :=
  match i with
  | .pllFreq p t => Sys2Proof.Machine.execPllFreq p t s
  | .pllParam p => Sys2Proof.Machine.execPllParam p s
  | .pllSetfreq p t f tol => Sys2Proof.Machine.execPllSetfreq p t f tol s
  | .pllLock p => Sys2Proof.Machine.execPllLock p s
  | .pllUnlock p => Sys2Proof.Machine.execPllUnlock p s
  | .pllEnable p => Sys2Proof.Machine.execPllEnable p s
  | .pllDisable p => Sys2Proof.Machine.execPllDisable p s
  | .pllSetoutdiv p t v => Sys2Proof.Machine.execPllSetoutdiv p t v s
  | .pllSetrefdiv p v => Sys2Proof.Machine.execPllSetrefdiv p v s
  | .pllSetfbdiv p v => Sys2Proof.Machine.execPllSetfbdiv p v s
  | .pllSetpost1 p v => Sys2Proof.Machine.execPllSetpost1 p v s
  | .pllSetpost2 p v => Sys2Proof.Machine.execPllSetpost2 p v s
  | .nonceCoreid n => Sys2Proof.Machine.execNonceCoreid n s
  | .nonceScid n => Sys2Proof.Machine.execNonceScid n s
  | .nonceScidv ver => Sys2Proof.Machine.execNonceScidv ver s
  | .nonceChipaddr n => Sys2Proof.Machine.execNonceChipaddr n s
  | .nonceRolldur => Sys2Proof.Machine.execNonceRolldur s
  | .chipVrenable m => Sys2Proof.Machine.execChipVrenable m s
  | .chipHashrate => Sys2Proof.Machine.execChipHashrate s
  | .chipRamp f => Sys2Proof.Machine.execChipRamp f s

end Sys2Proof.Machine
end

