-- ==== Sys2Proof/Machine/Port.lean ====
section
/-!
DEFINITION. The operation port (30_encoding.md R65, 60_exceptions.md R215) and the construction of an instance
(70_reset_and_hazards.md R230, R231).
-/
namespace Sys2Proof.Machine

/-- The host's oldest record and the state once it is taken from the host's list; none when the host has presented
nothing (R21, R215; log entry 3). -/
def fetch (s : State) : Option (OpRecord × State) :=
  match s.pending with
  | [] => none
  | rec :: rest => some (rec, { s with pending := rest })

/-- `s` with `rec` as the record that `fetch` takes next, in the place of the one that stood there. -/
def presentNext (s : State) (rec : OpRecord) : State := { s with pending := rec :: s.pending.tail }

/-- The construction of an instance with an input clock in MHz: refused unless the clock is F_IN (R231). -/
def construct (inputClock : Rat) (c : Config) : Host.Outcome State Fault Refusal :=
  if inputClock = Config.fIn then .next (State.resetOf c) else .refused .unsupportedInputClock

end Sys2Proof.Machine
end

