-- ==== Sys2Proof/Machine/Step.lean ====
section
/-!
DEFINITION. One step: one transaction on the operation port (20_memory.md R57, R59; 30_encoding.md R78).
-/
namespace Sys2Proof.Machine

/-- The block takes the host's oldest record and runs it. With nothing presented nothing happens (log entry 5). An
illegal opcode is an operation that faults (30_encoding.md R69); a record of the wrong shape is refused before it
reaches the block (R70, log entry 6). -/
def step (s : State) : Host.Outcome State Fault Refusal :=
  match fetch s with
  | none => .next s
  | some (rec, t) =>
    match decode rec with
    | .op i => exec i t
    | .illegalOpcode => illegalOperation rec t
    | .malformed => .refused .malformedRecord

/-- `s` with the record that a word of the opcode table stands for presented next (log entry 9). The table gives
every row 8 bits, so `w` is the opcode byte and every operand is zero. -/
def State.withFetchWord (s : State) (nbits w : Nat) : State := presentNext s (tableRecord (w % 2 ^ nbits))

end Sys2Proof.Machine
end

