-- ==== Sys2Proof/Machine/Assembler.lean ====
section
/-!
DEFINITION. The assembler syntax of the operations (30_encoding.md R79) and the pseudo-operation `pll.configure`
(R80). This is the transcriber's side of the port: it makes operation records from text and touches no state. What
R79 leaves open of the text is log entry 18.
-/
namespace Sys2Proof.Machine

/-- A token of a line: a run of word characters, or one punctuation mark. -/
inductive Token where
  | word (cs : List Char)
  | mark (c : Char)
  deriving DecidableEq, Repr

/-- The opening brace. -/
def openBrace : Char := Char.ofNat 0x7B

/-- The closing brace. -/
def closeBrace : Char := Char.ofNat 0x7D

/-- The characters of mnemonics, field names and numbers. -/
def isWordChar (c : Char) : Bool := c.isAlphanum || c = '.' || c = '_' || c = '/' || c = '-'

/-- The punctuation of R79 and R80. -/
def isMark (c : Char) : Bool :=
  c = ',' || c = ':' || c = '[' || c = ']' || c = '(' || c = ')' || c = openBrace || c = closeBrace

/-- A finished run of word characters, if there is one, before the tokens that follow it. -/
def flush (run : List Char) (ts : List Token) : List Token := if run = [] then ts else .word run :: ts

/-- The tokens of a line; `run` is the run of word characters being read. -/
def lex (run : List Char) : List Char → Option (List Token)
  | [] => some (flush run [])
  | c :: cs =>
    if isWordChar c then lex (run ++ [c]) cs
    else if c = ' ' then (lex [] cs).map (flush run)
    else if isMark c then (lex [] cs).map fun ts => flush run (.mark c :: ts)
    else none

/-- The value of a digit in a base up to 16. -/
def digitOf (base : Nat) (c : Char) : Option Nat :=
  let d := if '0' ≤ c ∧ c ≤ '9' then c.toNat - '0'.toNat
    else if 'a' ≤ c ∧ c ≤ 'f' then c.toNat - 'a'.toNat + 10
    else if 'A' ≤ c ∧ c ≤ 'F' then c.toNat - 'A'.toNat + 10
    else base
  if d < base then some d else none

/-- A run of digits with `_` only between digits; `afterDigit` says that the last character read was a digit. -/
def readDigits (base : Nat) (afterDigit : Bool) (acc : Nat) : List Char → Option Nat
  | [] => if afterDigit then some acc else none
  | c :: cs =>
    if c = '_' then if afterDigit then readDigits base false acc cs else none
    else match digitOf base c with
      | some d => readDigits base true (acc * base + d) cs
      | none => none

/-- An integer: decimal, or hexadecimal after `0x`. -/
def readInt : List Char → Option Nat
  | '0' :: 'x' :: cs => readDigits 16 false 0 cs
  | cs => readDigits 10 false 0 cs

/-- The part before the first `c`, and the part after it if there is a `c`. -/
def splitAtChar (c : Char) : List Char → List Char × Option (List Char)
  | [] => ([], none)
  | x :: xs => if x = c then ([], some xs) else ((x :: (splitAtChar c xs).1), (splitAtChar c xs).2)

/-- A value of Q>=0: a ratio `a/b`, or a decimal fraction. -/
def readRatio (cs : List Char) : Option Rat :=
  match splitAtChar '/' cs with
  | (a, some b) =>
    match readDigits 10 false 0 a, readDigits 10 false 0 b with
    | some n, some d => if d = 0 then none else some ((n : Rat) / d)
    | _, _ => none
  | (a, none) =>
    match splitAtChar '.' a with
    | (whole, none) => (readDigits 10 false 0 whole).map fun n => (n : Rat)
    | (whole, some frac) =>
      match readDigits 10 false 0 whole, readDigits 10 false 0 frac with
      | some n, some k => some (n + (k : Rat) / 10 ^ (frac.filter (· ≠ '_')).length)
      | _, _ => none

/-- A value of Q: as `readRatio`, with `-` before it for a negative one. -/
def readQ : List Char → Option Rat
  | '-' :: cs => (readRatio cs).map fun x => -x
  | cs => readRatio cs

/-- An operand of a type; a value that is not of the type is refused (R70). -/
def readOperand (k : OperandKind) (cs : List Char) : Option Operand :=
  match k with
  | .u8 => (readInt cs).bind fun n => if n < 2 ^ 8 then some (.u8 (BitVec.ofNat 8 n)) else none
  | .u32 => (readInt cs).bind fun n => if n < 2 ^ 32 then some (.u32 (BitVec.ofNat 32 n)) else none
  | .qNonneg => (readQ cs).bind fun x => if 0 ≤ x then some (.q x) else none
  | .q => (readQ cs).map .q

/-- The operands of a format, separated by commas. -/
def readOperands : List OperandKind → List Token → Option (List Operand)
  | [], [] => some []
  | [k], [.word w] => (readOperand k w).map ([·])
  | k :: ks, .word w :: .mark ',' :: rest =>
    if ks = [] then none
    else match readOperand k w, readOperands ks rest with
      | some o, some os => some (o :: os)
      | _, _ => none
  | _, _ => none

/-- A line of R79 read as an operation record. -/
def assemble (line : List Char) : Option OpRecord :=
  match lex [] line with
  | some (.word m :: rest) =>
    match opRows.find? fun row => row.asm.toList = m with
    | some row => (readOperands row.format.kinds rest).map (OpRecord.mk row.code)
    | none => none
  | _ => none

/-- An operand as text: integers in decimal, a rational as a ratio. -/
def printOperand : Operand → List Char
  | .u8 v => Nat.toDigits 10 v.toNat
  | .u32 v => Nat.toDigits 10 v.toNat
  | .q x => (if x.num < 0 then ['-'] else []) ++ Nat.toDigits 10 x.num.natAbs ++ ['/'] ++ Nat.toDigits 10 x.den

/-- Operands as text, separated by commas. -/
def printOperands : List Operand → List Char
  | [] => []
  | [o] => ' ' :: printOperand o
  | o :: os => ' ' :: printOperand o ++ [','] ++ printOperands os

/-- An instruction as a line of R79. -/
def print (i : Instr) : List Char :=
  match opRows.find? fun row => row.code = (encode i).opcode with
  | some row => row.asm.toList ++ printOperands (encode i).operands
  | none => []

/-- The fields of `pll.configure` (R80); a field not given is none, and `od` lists (t, v) pairs. -/
structure ConfigureFields where
  lock : Option Bool
  enable : Option Bool
  fb : Option U32
  ref : Option U32
  post1 : Option U32
  post2 : Option U32
  od : List (U8 × U32)
  deriving DecidableEq, Repr

/-- The operations that `pll.configure p, fields` expands into, in the order of R80. -/
def expandConfigure (p : U8) (c : ConfigureFields) : List Instr :=
  (c.lock.map fun b => if b then Instr.pllLock p else .pllUnlock p).toList ++
  (c.enable.map fun b => if b then Instr.pllEnable p else .pllDisable p).toList ++
  (c.fb.map (Instr.pllSetfbdiv p)).toList ++ (c.ref.map (Instr.pllSetrefdiv p)).toList ++
  (c.post1.map (Instr.pllSetpost1 p)).toList ++ (c.post2.map (Instr.pllSetpost2 p)).toList ++
  c.od.map fun tv => Instr.pllSetoutdiv p tv.1 tv.2

/-- A `u8` written as an integer. -/
def readU8 (cs : List Char) : Option U8 :=
  (readInt cs).bind fun n => if n < 2 ^ 8 then some (BitVec.ofNat 8 n) else none

/-- A `u32` written as an integer. -/
def readU32 (cs : List Char) : Option U32 :=
  (readInt cs).bind fun n => if n < 2 ^ 32 then some (BitVec.ofNat 32 n) else none

/-- `true` or `false`. -/
def readBool (cs : List Char) : Option Bool :=
  if cs = "true".toList then some true else if cs = "false".toList then some false else none

/-- One named field of `pll.configure` other than `od`. -/
def readField (c : ConfigureFields) (name value : List Char) : Option ConfigureFields :=
  if name = "lock".toList then (readBool value).map fun b => { c with lock := some b }
  else if name = "enable".toList then (readBool value).map fun b => { c with enable := some b }
  else if name = "fb".toList then (readU32 value).map fun v => { c with fb := some v }
  else if name = "ref".toList then (readU32 value).map fun v => { c with ref := some v }
  else if name = "post1".toList then (readU32 value).map fun v => { c with post1 := some v }
  else if name = "post2".toList then (readU32 value).map fun v => { c with post2 := some v }
  else none

/-- What may come next inside the braces of `pll.configure`. -/
inductive ConfigureMode where
  /-- the first field, or the closing brace -/
  | firstField
  /-- a field -/
  | field
  /-- a comma, or the closing brace -/
  | afterField
  /-- the first (t, v) pair of `od`, or its closing bracket -/
  | firstPair
  /-- a (t, v) pair -/
  | pair
  /-- a comma, or the closing bracket -/
  | afterPair
  deriving DecidableEq, Repr

/-- The fields of `pll.configure` up to the closing brace, in any order: R80 fixes the order of the expansion only
(DESIGN CHOICE, log entry 18). -/
def readFields (mode : ConfigureMode) (c : ConfigureFields) : List Token → Option ConfigureFields
  | [.mark b] => if (mode = .firstField ∨ mode = .afterField) ∧ b = closeBrace then some c else none
  | .mark ']' :: rest => if mode = .firstPair ∨ mode = .afterPair then readFields .afterField c rest else none
  | .mark ',' :: rest =>
    if mode = .afterField then readFields .field c rest
    else if mode = .afterPair then readFields .pair c rest
    else none
  | .mark '(' :: .word t :: .mark ',' :: .word v :: .mark ')' :: rest =>
    if mode = .firstPair ∨ mode = .pair then
      match readU8 t, readU32 v with
      | some t, some v => readFields .afterPair { c with od := c.od ++ [(t, v)] } rest
      | _, _ => none
    else none
  | .word name :: .mark ':' :: .mark '[' :: rest =>
    if (mode = .firstField ∨ mode = .field) ∧ name = "od".toList then readFields .firstPair c rest else none
  | .word name :: .mark ':' :: .word value :: rest =>
    if mode = .firstField ∨ mode = .field then
      match readField c name value with
      | some c => readFields .afterField c rest
      | none => none
    else none
  | _ => none

/-- A `pll.configure` line read as the operations it expands into (R80). The PLL and the taps are numerals (R79): the
names UART_PLL and UART_TAP in R80's example stand for the configuration's numbers and are not read (DESIGN CHOICE, log
entry 18). -/
def assembleConfigure (line : List Char) : Option (List Instr) :=
  match lex [] line with
  | some (.word m :: .word p :: .mark ',' :: .mark b :: rest) =>
    if m = "pll.configure".toList ∧ b = openBrace then
      match readU8 p, readFields .firstField ⟨none, none, none, none, none, none, []⟩ rest with
      | some p, some c => some (expandConfigure p c)
      | _, _ => none
    else none
  | _ => none

end Sys2Proof.Machine
end

