-- ==== Sys2Proof/Safety.lean ====
section
/-!
DEFINITION. What a good state is, and the words in which the statements speak of runs, bits, responses and write
sets. Nothing here is called by `step`.
-/
namespace Sys2Proof.Machine

/-- The invariant of every reachable state: that of 10_state.md R25, with what makes it inductive and with what the
rules say of the decoder mode (R31, R160) and of the fault record (60_exceptions.md R200, R202, R201 code 9). -/
structure LegalState (s : State) : Prop where
  /-- the instance's configuration is one the spec admits (00_scope.md R9, R10) -/
  config : s.cfg.wellFormed = true
  /-- the bank holds PLL_COUNT PLLs (10_state.md R23) -/
  bank : s.plls.length = s.cfg.pllCount
  /-- every PLL's fields are legal (R25) -/
  legal : ∀ q ∈ s.plls, pllLegal q = true
  /-- version rolling is on only with a non-zero mask, on a generation that supports it (R160) -/
  rolling : s.vrEn = true → s.vrMask ≠ 0 ∧ s.cfg.supportsVr = true
  /-- a faulted block answers with its record (R200, R202) -/
  answered : ∀ r, s.fault = some r → s.response = some (.fault r)
  /-- DivideByZero is never raised (R101, R201) -/
  noDivideByZero : ∀ r, s.fault = some r → r.code ≠ .divideByZero
  /-- only a ramp's fault has a detail (R200) -/
  detailOfRamp : ∀ r, s.fault = some r → r.detail ≠ none → r.op.opcode = 0x32

/-- `w[hi:lo]` of 00_scope.md R11 as a number. -/
def bitsOf (w : U32) (hi lo : Nat) : Nat := w.toNat / 2 ^ lo % 2 ^ (hi - lo + 1)

/-- `pre_freq(w)` of 40_pll.md R101, written from the bit numbers of 30_encoding.md R71. -/
def preFreqOf (w : U32) : Rat :=
  25 * bitsOf w 23 16 / (bitsOf w 15 8 * (bitsOf w 7 4 + 1) * (bitsOf w 3 0 + 1))

/-- The word of R71 whose fields are those of `d`, written as a sum: locked and enabled 1, the VCO range bit by the
2400 MHz condition, the reserved bits 0 (40_pll.md R108). -/
def wordOf (d : Dividers) : U32 :=
  BitVec.ofNat 32 (2 ^ 31 + 2 ^ 30 + (if (2400 : Rat) ≤ d.fb * 25 / d.ref then 2 ^ 28 else 0) + d.fb.toNat * 2 ^ 16 +
    d.ref * 2 ^ 8 + (d.p1 - 1) * 2 ^ 4 + (d.p2 - 1))

/-- `s` after an operation that wrote nothing and returned `r`. -/
def State.answered (s : State) (r : Result) : State := { s with response := some (.result r) }

/-- `s` after operation `i` faulted having written nothing (60_exceptions.md R200). -/
def State.faultedBy (s : State) (i : Instr) (code : FaultCode) (detail : Option Rat) : State :=
  { s with fault := some ⟨code, encode i, detail⟩, response := some (.fault ⟨code, encode i, detail⟩) }

/-- `s` with PLL p replaced, and the response `ok`. -/
def State.wrotePll (s : State) (p : U8) (q : Pll) : State :=
  { s with plls := s.plls.set p.toNat q, response := some (.result .ok) }

/-- `s` with the word `w` in the hash PLL, whose contents were `q`. -/
def State.wroteHashWord (s : State) (q : Pll) (w : U32) : State :=
  { s with plls := s.plls.set 0 { q with param := w } }

/-- The instructions in order, stopping where one does not give a next state. -/
def execAll : List Instr → State → Host.Outcome State Fault Refusal
  | [], s => .next s
  | i :: is, s =>
    match exec i s with
    | .next t => execAll is t
    | .fault r => .fault r
    | .refused r => .refused r

/-- The PLL operand of an instruction (40_pll.md R100). -/
def pllOperand : Instr → Option U8
  | .pllFreq p _ => some p
  | .pllParam p => some p
  | .pllSetfreq p _ _ _ => some p
  | .pllLock p => some p
  | .pllUnlock p => some p
  | .pllEnable p => some p
  | .pllDisable p => some p
  | .pllSetoutdiv p _ _ => some p
  | .pllSetrefdiv p _ => some p
  | .pllSetfbdiv p _ => some p
  | .pllSetpost1 p _ => some p
  | .pllSetpost2 p _ => some p
  | .nonceCoreid _ => none
  | .nonceScid _ => none
  | .nonceScidv _ => none
  | .nonceChipaddr _ => none
  | .nonceRolldur => none
  | .chipVrenable _ => none
  | .chipHashrate => none
  | .chipRamp _ => none

/-- The operations whose write set is empty (10_state.md R39). -/
def readOnly : Instr → Bool
  | .pllFreq _ _ => true
  | .pllParam _ => true
  | .pllSetfreq _ _ _ _ => false
  | .pllLock _ => false
  | .pllUnlock _ => false
  | .pllEnable _ => false
  | .pllDisable _ => false
  | .pllSetoutdiv _ _ _ => false
  | .pllSetrefdiv _ _ => false
  | .pllSetfbdiv _ _ => false
  | .pllSetpost1 _ _ => false
  | .pllSetpost2 _ _ => false
  | .nonceCoreid _ => true
  | .nonceScid _ => true
  | .nonceScidv _ => true
  | .nonceChipaddr _ => true
  | .nonceRolldur => true
  | .chipVrenable _ => false
  | .chipHashrate => true
  | .chipRamp _ => false

/-- The bits of `pll[k].param` that the write sets of 10_state.md R39 let an instruction write. -/
def paramBitsWritten (i : Instr) (k : Nat) : U32 :=
  match i with
  | .pllSetfreq p _ _ _ => if k = p.toNat then 0xFFFFFFFF else 0
  | .pllLock p => if k = p.toNat then 0x80000000 else 0
  | .pllUnlock p => if k = p.toNat then 0x80000000 else 0
  | .pllEnable p => if k = p.toNat then 0x40000000 else 0
  | .pllDisable p => if k = p.toNat then 0x40000000 else 0
  | .pllSetrefdiv p _ => if k = p.toNat then 0x0000FF00 else 0
  | .pllSetfbdiv p _ => if k = p.toNat then 0x00FF0000 else 0
  | .pllSetpost1 p _ => if k = p.toNat then 0x000000F0 else 0
  | .pllSetpost2 p _ => if k = p.toNat then 0x0000000F else 0
  | .chipRamp _ => if k = 0 then 0xFFFFFFFF else 0
  | .pllFreq _ _ => 0
  | .pllParam _ => 0
  | .pllSetoutdiv _ _ _ => 0
  | .nonceCoreid _ => 0
  | .nonceScid _ => 0
  | .nonceScidv _ => 0
  | .nonceChipaddr _ => 0
  | .nonceRolldur => 0
  | .chipVrenable _ => 0
  | .chipHashrate => 0

/-- Whether the write sets of 10_state.md R39 let an instruction write `pll[k].od[t]`. -/
def outDivWritten (i : Instr) (k : Nat) (t : Tap) : Bool :=
  match i with
  | .pllSetoutdiv p t' _ => decide (k = p.toNat ∧ t.val = t'.toNat)
  | .pllFreq _ _ => false
  | .pllParam _ => false
  | .pllSetfreq _ _ _ _ => false
  | .pllLock _ => false
  | .pllUnlock _ => false
  | .pllEnable _ => false
  | .pllDisable _ => false
  | .pllSetrefdiv _ _ => false
  | .pllSetfbdiv _ _ => false
  | .pllSetpost1 _ _ => false
  | .pllSetpost2 _ _ => false
  | .nonceCoreid _ => false
  | .nonceScid _ => false
  | .nonceScidv _ => false
  | .nonceChipaddr _ => false
  | .nonceRolldur => false
  | .chipVrenable _ => false
  | .chipHashrate => false
  | .chipRamp _ => false

/-- What two states must agree on for an instruction to read the same in both (10_state.md R39): the dividers of
one tap. -/
def sameTap (s t : State) (k : Nat) (tap : Nat) : Prop :=
  (s.plls[k]?).map (fun q => (bitsOf q.param 23 0, q.od[tap]?)) =
    (t.plls[k]?).map (fun q => (bitsOf q.param 23 0, q.od[tap]?))

/-- The read set of an instruction (10_state.md R39): two states that agree on it, on the configuration and on the
number of PLLs. -/
def sameReads (i : Instr) (s t : State) : Prop :=
  match i with
  | .pllFreq p tap => sameTap s t p.toNat tap.toNat
  | .pllParam p => (s.plls[p.toNat]?).map (·.param) = (t.plls[p.toNat]?).map (·.param)
  | .pllSetfreq _ _ _ _ => True
  | .pllLock _ => True
  | .pllUnlock _ => True
  | .pllEnable _ => True
  | .pllDisable _ => True
  | .pllSetoutdiv _ _ _ => True
  | .pllSetrefdiv _ _ => True
  | .pllSetfbdiv _ _ => True
  | .pllSetpost1 _ _ => True
  | .pllSetpost2 _ _ => True
  | .nonceCoreid _ => True
  | .nonceScid _ => s.vrEn = t.vrEn
  | .nonceScidv _ => s.vrEn = t.vrEn ∧ s.vrMask = t.vrMask
  | .nonceChipaddr _ => s.vrEn = t.vrEn
  | .nonceRolldur => s.vrEn = t.vrEn ∧ s.vrMask = t.vrMask ∧ sameTap s t 0 0
  | .chipVrenable _ => True
  | .chipHashrate => sameTap s t 0 0
  | .chipRamp _ => sameTap s t 0 0

/-- The number of steps of a ramp from `start` to `target` (42_chip_and_ramp.md R164). -/
def rampCount (start target : Rat) : Nat :=
  if target - start ≤ 25 / 4 then 1 else (⌈(target - start) / (25 / 4)⌉).toNat

/-- The frequency of step `k` of a ramp, the first step being 0 (R164): `start + 6.25 (k + 1)` while that is below
the target, then the target. -/
def rampFreq (start target : Rat) (k : Nat) : Rat :=
  if start + 25 / 4 * (k + 1) < target then start + 25 / 4 * (k + 1) else target

/-- The delay of step `k` of a ramp (R165): 400 ms at 380 MHz or below, and of the steps above 380 MHz, counted from
1, 2300 ms when the count is odd and 400 ms when it is even. -/
def rampDelay (start target : Rat) (k : Nat) : Nat :=
  if rampFreq start target k ≤ 380 then 400
  else if ((List.range (k + 1)).countP fun j => decide (380 < rampFreq start target j)) % 2 = 1 then 2300
  else 400

/-- The word of a search result: PACK of what SEARCH gives (40_pll.md R108), 0 where it gives nothing. -/
def searchWord (target tol : Rat) : U32 :=
  match search target tol with
  | some d => pack d
  | none => 0

end Sys2Proof.Machine
end

