-- ==== Sys2Proof/Certificates/Slice0/Obligations.lean ====
section
/-!
DEFINITION. The statements for the provers: what the rules of spec/ say the block does, over every state, every
configuration and every operand. The vocabulary is Safety's: `bitsOf w hi lo` is `w[hi:lo]`, `answered`, `faultedBy`
and `wrotePll` give the whole next state, so a statement of a result is also the frame of that result.
-/
open Sys2Proof Sys2Proof.Machine

/-! ## Reset and construction -/

/-- R34. The constraints of R34 on the parameters are part of `Config.wellFormed`. -/
def Obligations.ResetGivesEveryPieceItsValue : Prop :=
  Config.fIn = 25 ∧ ∀ c : Config,
    ((State.resetOf c).plls = c.pllDefaults ∧ (State.resetOf c).vrEn = false ∧
      (State.resetOf c).vrMask = c.defaultVersionMask ∧ (State.resetOf c).fault = none) ∧
    (c.wellFormed = true → ∀ q ∈ c.pllDefaults,
      (bitsOf q.param 15 8 = 1 ∨ bitsOf q.param 15 8 = 2) ∧ bitsOf q.param 7 4 ≤ 6 ∧ bitsOf q.param 3 0 ≤ 6 ∧
        ∀ t : Tap, (q.od[t]).toNat ≤ 15)

/-- R231, and R230: a constructed instance is in the reset state of its configuration. That construction at 25 MHz
succeeds for every configuration, admitted or not, is the model's choice (log entry 14). -/
def Obligations.ConstructionNeedsThe25MHzClock : Prop :=
  ∀ (clock : Rat) (c : Config),
    (clock = 25 → construct clock c = .next (State.resetOf c)) ∧
    (clock ≠ 25 → construct clock c = .refused .unsupportedInputClock)

/-- R35, R36: of every admitted configuration; and the pair R35 names gives 50 MHz. -/
def Obligations.ResetHashClockIs50MHzAndUartPllIsEnabled : Prop :=
  tapFreq ⟨0xC0A80265, #v[0, 0, 0, 0]⟩ 0 = some 50 ∧ ∀ c : Config, c.wellFormed = true →
    (∃ q, (State.resetOf c).plls[0]? = some q ∧ preFreqOf q.param / ((q.od[(0 : Tap)]).toNat + 1) = 50) ∧
    (∃ q, (State.resetOf c).plls[c.uartPll]? = some q ∧ bitsOf q.param 30 30 = 1)

/-- R25 at reset, for every admitted configuration, the model's `State.reset` among them (its configuration is the
model's choice, log entry 2). -/
def Obligations.ResetMeetsTheInvariant : Prop :=
  LegalState State.reset ∧ ∀ c : Config, c.wellFormed = true → LegalState (State.resetOf c)

/-! ## The machine -/

/-- R25: no step breaks the invariant, from any state that has it. That a faulting RAMP keeps the hash-PLL word legal,
where R205 lets it be any value, rests on log entry 12. -/
def Obligations.EveryStepKeepsTheInvariant : Prop :=
  ∀ s t : State, LegalState s → step s = .next t → LegalState t

/-- R38: "no operation writes them", of the configuration, which is a field of the state by the model's choice (log
entry 1). -/
def Obligations.NoStepWritesTheConfiguration : Prop :=
  ∀ s t : State, step s = .next t → t.cfg = s.cfg

/-- R65: every operation is answered, whatever the state and the operands; none is refused by the machine. The
response as a field of the state is log entry 4. -/
def Obligations.EveryOperationIsAnswered : Prop :=
  ∀ (i : Instr) (s : State), ∃ t r, exec i s = .next t ∧ t.response = some r

/-- A step takes the host's oldest record and is `exec` of the instruction it decodes to, in the state without that
record; with no record presented, the state does not change (the model's choice, log entries 3 and 5). -/
def Obligations.StepRunsTheDecodedOperation : Prop :=
  (∀ (s : State) (rec : OpRecord) (rest : List OpRecord) (i : Instr),
    s.pending = rec :: rest → decode rec = .op i → step s = exec i { s with pending := rest }) ∧
  (∀ s : State, s.pending = [] → step s = .next s)

/-- R69, with the ranges as R69 lists them. -/
def Obligations.IllegalOpcodeFaultsAndChangesNothingElse : Prop :=
  ∀ (s : State) (rec : OpRecord) (rest : List OpRecord), s.pending = rec :: rest →
    (rec.opcode.toNat ≤ 0x0F ∨ (0x1C ≤ rec.opcode.toNat ∧ rec.opcode.toNat ≤ 0x1F) ∨
      (0x25 ≤ rec.opcode.toNat ∧ rec.opcode.toNat ≤ 0x2F) ∨ 0x33 ≤ rec.opcode.toNat) → s.fault = none →
    step s = .next { s with
      pending := rest
      fault := some ⟨.illegalOperation, rec, none⟩
      response := some (.fault ⟨.illegalOperation, rec, none⟩) }

/-- R202, for an operation and for an illegal opcode. The step also takes the record from the host's list, which is
no state of the block. -/
def Obligations.FaultIsStickyAndItsRecordIsRepeated : Prop :=
  ∀ (s : State) (r : FaultRecord), s.fault = some r →
    (∀ i : Instr, exec i s = .next { s with response := some (.fault r) }) ∧
    (∀ (rec : OpRecord) (rest : List OpRecord), s.pending = rec :: rest → decode rec ≠ .malformed →
      step s = .next { s with pending := rest, response := some (.fault r) })

/-- R200 for a block that has not faulted: the record of a fault holds the operation, is the response, and has a
detail only inside a ramp. -/
def Obligations.FaultRecordsItsOperation : Prop :=
  ∀ (i : Instr) (s t : State) (r : FaultRecord),
    s.fault = none → exec i s = .next t → t.fault = some r →
      r.op = encode i ∧ t.response = some (.fault r) ∧ ((∀ f, i ≠ .chipRamp f) → r.detail = none)

/-- R204. -/
def Obligations.FaultsArePreciseExceptInRamp : Prop :=
  ∀ (i : Instr) (s t : State) (r : FaultRecord), (∀ f, i ≠ .chipRamp f) →
    s.fault = none → exec i s = .next t → t.fault = some r →
      t = { s with fault := some r, response := some (.fault r) }

/-- R70: a record of a legal opcode is an operation exactly when its operands have the shape and types of its format;
otherwise it is refused and not executed (that the run then stops is log entry 6). -/
def Obligations.MalformedRecordIsRefused : Prop :=
  ∀ (s : State) (rec : OpRecord) (rest : List OpRecord) (fmt : Format),
    s.pending = rec :: rest → formatOf rec.opcode = some fmt →
      (conforms fmt.kinds rec.operands = true → ∃ i, decode rec = .op i ∧ step s = exec i { s with pending := rest }) ∧
      (conforms fmt.kinds rec.operands = false → step s = .refused .malformedRecord)

/-- Decoding and encoding agree in both directions: what decodes to an instruction is that instruction's record, and
the instruction is well formed. -/
def Obligations.DecodeAndEncodeAgree : Prop :=
  ∀ (rec : OpRecord) (i : Instr), decode rec = .op i ↔ (i.wellFormed = true ∧ rec = encode i)

/-- Records written out from R67 and R68 decode to the operations they stand for, and the opcode after each group is
illegal. -/
def Obligations.OpcodeMapSampleDecodes : Prop :=
  decode ⟨0x10, [.u8 1, .u8 2]⟩ = .op (.pllFreq 1 2) ∧
  decode ⟨0x17, [.u8 1, .u8 2, .u32 6]⟩ = .op (.pllSetoutdiv 1 2 6) ∧
  decode ⟨0x1B, [.u8 0, .u32 7]⟩ = .op (.pllSetpost2 0 7) ∧
  decode ⟨0x23, [.u32 0x5AA78000]⟩ = .op (.nonceChipaddr 0x5AA78000) ∧
  decode ⟨0x24, []⟩ = .op .nonceRolldur ∧
  decode ⟨0x30, [.u32 0x1FFFE000]⟩ = .op (.chipVrenable 0x1FFFE000) ∧
  decode ⟨0x1C, []⟩ = .illegalOpcode ∧ decode ⟨0x25, []⟩ = .illegalOpcode ∧ decode ⟨0x33, []⟩ = .illegalOpcode

/-! ## PLL operations -/

/-- R101, R102. -/
def Obligations.FreqReturnsTheTapFrequency : Prop :=
  ∀ (s : State) (p t : U8), s.fault = none →
    encode (.pllFreq p t) = ⟨0x10, [.u8 p, .u8 t]⟩ ∧
    (∀ (q : Pll) (h : t.toNat < 4), s.plls[p.toNat]? = some q → bitsOf q.param 15 8 ≠ 0 →
      exec (.pllFreq p t) s =
        .next (s.answered (.frequency (preFreqOf q.param / ((q.od[t.toNat]).toNat + 1))))) ∧
    (∀ q : Pll, t.toNat < 4 → s.plls[p.toNat]? = some q → bitsOf q.param 15 8 = 0 →
      exec (.pllFreq p t) s = .next (s.faultedBy (.pllFreq p t) .divideByZero none)) ∧
    (s.plls.length ≤ p.toNat ∨ 4 ≤ t.toNat →
      exec (.pllFreq p t) s = .next (s.faultedBy (.pllFreq p t) .operandRange none))

/-- R103. -/
def Obligations.ParamReturnsTheWholeWord : Prop :=
  ∀ (s : State) (p : U8), s.fault = none →
    encode (.pllParam p) = ⟨0x11, [.u8 p]⟩ ∧
    (∀ q : Pll, s.plls[p.toNat]? = some q → exec (.pllParam p) s = .next (s.answered (.param q.param))) ∧
    (s.plls.length ≤ p.toNat →
      exec (.pllParam p) s = .next (s.faultedBy (.pllParam p) .operandRange none))

/-- R112, R113. -/
def Obligations.LockAndUnlockWriteBit31 : Prop :=
  ∀ (s : State) (p : U8), s.fault = none →
    encode (.pllLock p) = ⟨0x13, [.u8 p]⟩ ∧ encode (.pllUnlock p) = ⟨0x14, [.u8 p]⟩ ∧
    (∀ q : Pll, s.plls[p.toNat]? = some q →
      exec (.pllLock p) s = .next (s.wrotePll p { q with param := q.param ||| 0x80000000#32 }) ∧
      exec (.pllUnlock p) s = .next (s.wrotePll p { q with param := q.param &&& 0x7FFFFFFF#32 })) ∧
    (s.plls.length ≤ p.toNat →
      exec (.pllLock p) s = .next (s.faultedBy (.pllLock p) .operandRange none) ∧
      exec (.pllUnlock p) s = .next (s.faultedBy (.pllUnlock p) .operandRange none))

/-- R114, R115. -/
def Obligations.EnableAndDisableWriteBit30 : Prop :=
  ∀ (s : State) (p : U8), s.fault = none →
    encode (.pllEnable p) = ⟨0x15, [.u8 p]⟩ ∧ encode (.pllDisable p) = ⟨0x16, [.u8 p]⟩ ∧
    (∀ q : Pll, s.plls[p.toNat]? = some q →
      exec (.pllEnable p) s = .next (s.wrotePll p { q with param := q.param ||| 0x40000000#32 }) ∧
      exec (.pllDisable p) s = .next (s.wrotePll p { q with param := q.param &&& 0xBFFFFFFF#32 })) ∧
    (s.plls.length ≤ p.toNat →
      exec (.pllEnable p) s = .next (s.faultedBy (.pllEnable p) .operandRange none) ∧
      exec (.pllDisable p) s = .next (s.faultedBy (.pllDisable p) .operandRange none))

/-- R116. -/
def Obligations.SetOutDivWritesOneTap : Prop :=
  ∀ (s : State) (p t : U8) (v : U32), s.fault = none →
    encode (.pllSetoutdiv p t v) = ⟨0x17, [.u8 p, .u8 t, .u32 v]⟩ ∧
    (∀ (q : Pll) (h : t.toNat < 4), s.plls[p.toNat]? = some q → v.toNat ≤ 15 →
      exec (.pllSetoutdiv p t v) s =
        .next (s.wrotePll p { q with od := q.od.set t.toNat (BitVec.ofNat 8 v.toNat) })) ∧
    (s.plls.length ≤ p.toNat ∨ 4 ≤ t.toNat ∨ 15 < v.toNat →
      exec (.pllSetoutdiv p t v) s = .next (s.faultedBy (.pllSetoutdiv p t v) .operandRange none))

/-- R117. -/
def Obligations.SetRefDivWritesItsField : Prop :=
  ∀ (s : State) (p : U8) (v : U32), s.fault = none →
    encode (.pllSetrefdiv p v) = ⟨0x18, [.u8 p, .u32 v]⟩ ∧
    (∀ q : Pll, s.plls[p.toNat]? = some q → v = 1 ∨ v = 2 →
      exec (.pllSetrefdiv p v) s =
        .next (s.wrotePll p { q with param := (q.param &&& 0xFFFF00FF#32) ||| (v <<< 8) })) ∧
    (s.plls.length ≤ p.toNat ∨ v = 0 ∨ 2 < v.toNat →
      exec (.pllSetrefdiv p v) s = .next (s.faultedBy (.pllSetrefdiv p v) .operandRange none))

/-- R118. -/
def Obligations.SetFbDivWritesItsField : Prop :=
  ∀ (s : State) (p : U8) (v : U32), s.fault = none →
    encode (.pllSetfbdiv p v) = ⟨0x19, [.u8 p, .u32 v]⟩ ∧
    (∀ q : Pll, s.plls[p.toNat]? = some q → v.toNat ≤ 255 →
      exec (.pllSetfbdiv p v) s =
        .next (s.wrotePll p { q with param := (q.param &&& 0xFF00FFFF#32) ||| (v <<< 16) })) ∧
    (s.plls.length ≤ p.toNat ∨ 255 < v.toNat →
      exec (.pllSetfbdiv p v) s = .next (s.faultedBy (.pllSetfbdiv p v) .operandRange none))

/-- R119, R120. -/
def Obligations.SetPostDividersWriteTheirFields : Prop :=
  ∀ (s : State) (p : U8) (v : U32), s.fault = none →
    encode (.pllSetpost1 p v) = ⟨0x1A, [.u8 p, .u32 v]⟩ ∧ encode (.pllSetpost2 p v) = ⟨0x1B, [.u8 p, .u32 v]⟩ ∧
    (∀ q : Pll, s.plls[p.toNat]? = some q → 1 ≤ v.toNat → v.toNat ≤ 7 →
      exec (.pllSetpost1 p v) s =
        .next (s.wrotePll p { q with param := (q.param &&& 0xFFFFFF0F#32) ||| ((v - 1) <<< 4) }) ∧
      exec (.pllSetpost2 p v) s =
        .next (s.wrotePll p { q with param := (q.param &&& 0xFFFFFFF0#32) ||| (v - 1) })) ∧
    (s.plls.length ≤ p.toNat ∨ v = 0 ∨ 7 < v.toNat →
      exec (.pllSetpost1 p v) s = .next (s.faultedBy (.pllSetpost1 p v) .operandRange none) ∧
      exec (.pllSetpost2 p v) s = .next (s.faultedBy (.pllSetpost2 p v) .operandRange none))

/-- R108, R110: the word written, as a sum of its fields. -/
def Obligations.SetFreqWritesThePackedWord : Prop :=
  ∀ (s : State) (p t : U8) (f tol : Rat), s.fault = none →
    encode (.pllSetfreq p t f tol) = ⟨0x12, [.u8 p, .u8 t, .q f, .q tol]⟩ ∧
    (∀ (q : Pll) (d : Dividers), s.plls[p.toNat]? = some q → t.toNat < 4 → search f tol = some d →
      exec (.pllSetfreq p t f tol) s = .next (s.wrotePll p { q with param := wordOf d })) ∧
    (p.toNat < s.plls.length → t.toNat < 4 → search f tol = none →
      exec (.pllSetfreq p t f tol) s = .next (s.faultedBy (.pllSetfreq p t f tol) .noDividerFound none)) ∧
    (s.plls.length ≤ p.toNat ∨ 4 ≤ t.toNat →
      exec (.pllSetfreq p t f tol) s = .next (s.faultedBy (.pllSetfreq p t f tol) .operandRange none))

/-- What R104 and R105 make an accepted candidate of the combination (ref, p1, p2). -/
def AcceptedCandidate (target tol : Rat) (d : Dividers) : Prop :=
  (d.ref = 1 ∨ d.ref = 2) ∧ 1 ≤ d.p2 ∧ d.p2 ≤ d.p1 ∧ d.p1 ≤ 7 ∧
    d.fb = ⌊target * (d.ref * d.p1 * d.p2) / 25 + 1 / 2⌋ ∧ 0xA0 ≤ d.fb ∧ d.fb ≤ 0xEF ∧
    |target - 25 * d.fb / (d.ref * d.p1 * d.p2)| < tol

/-- R107: the accepted candidate with the smallest product p1 * p2, among those with that product one with ref = 2 if
there is one, and then the largest p1; none exactly when no candidate is accepted. -/
def Obligations.SearchReturnsTheFirstOfSmallestProduct : Prop :=
  ∀ target tol : Rat,
    (search target tol = none ↔ ∀ d, ¬ AcceptedCandidate target tol d) ∧
    ∀ d, search target tol = some d ↔
      (AcceptedCandidate target tol d ∧ ∀ e, AcceptedCandidate target tol e →
        d.p1 * d.p2 < e.p1 * e.p2 ∨
        (d.p1 * d.p2 = e.p1 * e.p2 ∧ (e.ref < d.ref ∨ (e.ref = d.ref ∧ e.p1 ≤ d.p1))))

/-- R111: D and fb in their ranges, the reach, the targets beyond it, and the targets inside it without a candidate at
tolerance 1/1000: 77 MHz, and of the multiples 6.25 k MHz up to 1000 those with k ≤ 7 or odd k from 121 on. -/
def Obligations.SearchReachIs2000Over49To5975 : Prop :=
  (∀ target tol : Rat,
    (∀ d, search target tol = some d →
      1 ≤ d.ref * d.p1 * d.p2 ∧ d.ref * d.p1 * d.p2 ≤ 98 ∧ 160 ≤ d.fb ∧ d.fb ≤ 239 ∧
        2000 / 49 ≤ achieved d ∧ achieved d ≤ 5975) ∧
    (tol ≤ 0 → search target tol = none) ∧
    (target + tol ≤ 2000 / 49 → search target tol = none) ∧ (5975 ≤ target - tol → search target tol = none)) ∧
  search 77 (1 / 1000) = none ∧
  ∀ k : Nat, 1 ≤ k → k ≤ 160 →
    (search (25 / 4 * k) (1 / 1000) = none ↔ k ≤ 7 ∨ (121 ≤ k ∧ k % 2 = 1))

/-- R109. -/
def Obligations.VcoBitOfSearchWords : Prop :=
  ∀ (target tol : Rat) (d : Dividers), search target tol = some d →
    ((2400 : Rat) ≤ d.fb * 25 / d.ref ↔ d.ref = 1 ∨ 192 ≤ d.fb) ∧
    (d.ref = 1 → bitsOf (pack d) 31 24 = 0xD0) ∧
    (d.ref = 2 → 192 ≤ d.fb → bitsOf (pack d) 31 24 = 0xD0) ∧
    (d.ref = 2 → d.fb ≤ 191 → bitsOf (pack d) 31 24 = 0xC0)

/-- R105, R122, R123: after SETFREQ the word's own fields meet the acceptance conditions, the pre-divider frequency
is within tol of the target, and the tap's frequency is that over od + 1. -/
def Obligations.SetFreqLandsWithinTolerance : Prop :=
  ∀ (s u : State) (p t : U8) (f tol : Rat),
    s.fault = none → exec (.pllSetfreq p t f tol) s = .next u → u.fault = none →
      ∃ q, u.plls[p.toNat]? = some q ∧ |f - preFreqOf q.param| < tol ∧
        0xA0 ≤ bitsOf q.param 23 16 ∧ bitsOf q.param 23 16 ≤ 0xEF ∧ bitsOf q.param 3 0 ≤ bitsOf q.param 7 4 ∧
        ∀ h : t.toNat < 4, exec (.pllFreq p t) u =
          .next (u.answered (.frequency (preFreqOf q.param / ((q.od[t.toNat]).toNat + 1))))

/-- R26, R27: the flag setters move no frequency, hash rate or rolling duration. -/
def Obligations.FlagSettersMoveNoFrequency : Prop :=
  ∀ (j i : Instr) (p : U8) (s u : State),
    j = .pllLock p ∨ j = .pllUnlock p ∨ j = .pllEnable p ∨ j = .pllDisable p →
    (∃ k t, i = .pllFreq k t) ∨ i = .chipHashrate ∨ i = .nonceRolldur →
    s.fault = none → exec j s = .next u → u.fault = none →
      ∃ v w, exec i s = .next v ∧ exec i u = .next w ∧ v.response = w.response

/-- R28, and R29 of the reserved bits: vco_hi and the reserved bits change only by SETFREQ and RAMP, and a word those
two have written has the VCO bit of its own dividers and zero reserved bits. Of the hash-PLL word after a faulting RAMP,
which R205 lets be any value, that is the model's choice (log entry 12). -/
def Obligations.VcoAndReservedBitsAreTheSearchsOwn : Prop :=
  ∀ (i : Instr) (s u : State) (k : Nat) (q q' : Pll),
    exec i s = .next u → s.plls[k]? = some q → u.plls[k]? = some q' →
      ((∀ p t f tol, i ≠ .pllSetfreq p t f tol) → (∀ f, i ≠ .chipRamp f) →
        bitsOf q'.param 29 28 = bitsOf q.param 29 28 ∧ bitsOf q'.param 27 24 = bitsOf q.param 27 24) ∧
      ((∃ p t f tol, i = .pllSetfreq p t f tol ∧ p.toNat = k) ∨ ((∃ f, i = .chipRamp f) ∧ k = 0) →
        u.fault = none ∨ q'.param ≠ q.param →
          bitsOf q'.param 29 29 = 0 ∧ bitsOf q'.param 27 24 = 0 ∧
          (bitsOf q'.param 28 28 = 1 ↔ (2400 : Rat) ≤ bitsOf q'.param 23 16 * 25 / bitsOf q'.param 15 8))

/-- R121: operations on different PLLs commute: each returns the same, and the states differ in the response only. -/
def Obligations.OperationsOnDifferentPllsCommute : Prop :=
  ∀ (i j : Instr) (p p' : U8) (s s₁ s₁₂ s₂ s₂₁ : State),
    pllOperand i = some p → pllOperand j = some p' → p ≠ p' →
    exec i s = .next s₁ → exec j s₁ = .next s₁₂ → exec j s = .next s₂ → exec i s₂ = .next s₂₁ →
    s₁₂.fault = none → s₂₁.fault = none →
      s₁.response = s₂₁.response ∧ s₂.response = s₁₂.response ∧
      { s₁₂ with response := none } = { s₂₁ with response := none }

/-! ## Read and write sets -/

/-- R39, the write sets, and the frame of every instruction: what no write set names is unchanged in any next state.
Each instruction also writes the response, and a fault writes `fault` (R200). -/
def Obligations.NothingOutsideTheWriteSetChanges : Prop :=
  ∀ (i : Instr) (s u : State), exec i s = .next u →
    u.cfg = s.cfg ∧ u.pending = s.pending ∧ u.plls.length = s.plls.length ∧
    ((∀ m, i ≠ .chipVrenable m) → u.vrEn = s.vrEn ∧ u.vrMask = s.vrMask) ∧
    (∀ k q, s.plls[k]? = some q → ∃ q', u.plls[k]? = some q' ∧
      q'.param &&& ~~~(paramBitsWritten i k) = q.param &&& ~~~(paramBitsWritten i k) ∧
      ∀ t : Tap, outDivWritten i k t = false → q'.od[t] = q.od[t]) ∧
    (readOnly i = true → u = { s with fault := u.fault, response := u.response })

/-- R39, the read sets: an operation answers the same in two states that agree on what it reads, on the
configuration and on the size of the bank, whatever else differs. -/
def Obligations.AnswersDependOnTheReadSetOnly : Prop :=
  ∀ (i : Instr) (s s' u u' : State),
    s.fault = none → s'.fault = none → s'.cfg = s.cfg → s'.plls.length = s.plls.length → sameReads i s s' →
    exec i s = .next u → exec i s' = .next u' → u.response = u'.response

/-- R58: a read-only operation repeated on the state it leaves gives the same state and response again. -/
def Obligations.ReadingHasNoSideEffect : Prop :=
  ∀ (i : Instr) (s u : State), readOnly i = true → s.fault = none → exec i s = .next u →
    exec i u = .next u ∧ (u.fault = none → u = { s with response := u.response })

/-! ## Nonce decoder -/

/-- R141. -/
def Obligations.CoreIdIsTheTopBits : Prop :=
  ∀ (s : State) (n : U32), s.fault = none → s.cfg.nonceFits = true →
    encode (.nonceCoreid n) = ⟨0x20, [.u32 n]⟩ ∧ exec (.nonceCoreid n) s =
      .next (s.answered (.coreId (BitVec.ofNat 32 (n.toNat / 2 ^ (32 - s.cfg.coreIdBits)))))

/-- R142. -/
def Obligations.SmallCoreIdWithRollingOff : Prop :=
  ∀ (s : State) (n : U32), s.fault = none → s.cfg.nonceFits = true →
    encode (.nonceScid n) = ⟨0x21, [.u32 n]⟩ ∧
    (s.vrEn = false → exec (.nonceScid n) s = .next (s.answered (.smallCoreId (BitVec.ofNat 32
      (n.toNat / 2 ^ (32 - s.cfg.coreIdBits - s.cfg.smallCoreIdBits) % 2 ^ s.cfg.smallCoreIdBits))))) ∧
    (s.vrEn = true → exec (.nonceScid n) s = .next (s.faultedBy (.nonceScid n) .modeMismatch none))

/-- R143, with `tzc` as the index of the lowest set bit (R12). -/
def Obligations.SmallCoreIdFromTheVersionWord : Prop :=
  ∀ (s : State) (ver : U32), s.fault = none → s.cfg.nonceFits = true →
    encode (.nonceScidv ver) = ⟨0x22, [.u32 ver]⟩ ∧
    (∀ k, s.vrEn = true → s.vrMask.getLsbD k = true → (∀ j < k, s.vrMask.getLsbD j = false) →
      exec (.nonceScidv ver) s = .next (s.answered (.smallCoreId (BitVec.ofNat 32
        (ver.toNat / 2 ^ k % 2 ^ s.cfg.smallCoreIdBits))))) ∧
    (s.vrEn = false → exec (.nonceScidv ver) s = .next (s.faultedBy (.nonceScidv ver) .modeMismatch none)) ∧
    (s.vrEn = true → s.vrMask = 0 →
      exec (.nonceScidv ver) s = .next (s.faultedBy (.nonceScidv ver) .zeroVersionMask none))

/-- R144. -/
def Obligations.ChipAddressInBothModes : Prop :=
  ∀ (s : State) (n : U32), s.fault = none → s.cfg.nonceFits = true →
    encode (.nonceChipaddr n) = ⟨0x23, [.u32 n]⟩ ∧
    (s.vrEn = true → exec (.nonceChipaddr n) s = .next (s.answered (.chipAddress (BitVec.ofNat 8
      (n.toNat / 2 ^ (24 - s.cfg.coreIdBits) % 256))))) ∧
    (s.vrEn = false → exec (.nonceChipaddr n) s = .next (s.answered (.chipAddress (BitVec.ofNat 8
      (n.toNat / 2 ^ (24 - s.cfg.coreIdBits - s.cfg.smallCoreIdBits) % 256)))))

/-- R145, with `popcount` as the number of set bits (R12); the checks in their order. -/
def Obligations.RollingDurationIsSpaceOverFrequency : Prop :=
  ∀ (s : State) (q : Pll) (f : Rat), s.fault = none → s.cfg.nonceFits = true → s.plls[0]? = some q →
    f = preFreqOf q.param / ((q.od[(0 : Tap)]).toNat + 1) →
    encode .nonceRolldur = ⟨0x24, []⟩ ∧
    (bitsOf q.param 15 8 = 0 → exec .nonceRolldur s = .next (s.faultedBy .nonceRolldur .divideByZero none)) ∧
    (bitsOf q.param 15 8 ≠ 0 → bitsOf q.param 23 16 = 0 →
      exec .nonceRolldur s = .next (s.faultedBy .nonceRolldur .zeroHashFrequency none)) ∧
    (bitsOf q.param 15 8 ≠ 0 → bitsOf q.param 23 16 ≠ 0 → s.vrEn = true → s.vrMask = 0 →
      exec .nonceRolldur s = .next (s.faultedBy .nonceRolldur .zeroVersionMask none)) ∧
    (bitsOf q.param 15 8 ≠ 0 → bitsOf q.param 23 16 ≠ 0 → s.vrEn = true → s.vrMask ≠ 0 →
      exec .nonceRolldur s = .next (s.answered (.duration
        (2 ^ (24 - s.cfg.coreIdBits - s.cfg.smallCoreIdBits +
          (Finset.univ.filter fun k : Fin 32 => s.vrMask.getLsbD k = true).card) / (f * 1000000))))) ∧
    (bitsOf q.param 15 8 ≠ 0 → bitsOf q.param 23 16 ≠ 0 → s.vrEn = false →
      exec .nonceRolldur s = .next (s.answered (.duration
        (2 ^ (24 - s.cfg.coreIdBits - s.cfg.smallCoreIdBits) / (f * 1000000)))))

/-- R146: a nonce (and version word) made of exactly the three fields gives the three values back, in each mode. -/
def Obligations.NonceFieldsRoundTrip : Prop :=
  ∀ (s : State) (c k a C S : Nat), s.fault = none → s.cfg.nonceFits = true →
    C = s.cfg.coreIdBits → S = s.cfg.smallCoreIdBits → c < 2 ^ C → k < 2 ^ S → a < 256 →
    (s.vrEn = false → ∀ n, n = BitVec.ofNat 32 (c * 2 ^ (32 - C) + k * 2 ^ (32 - C - S) + a * 2 ^ (24 - C - S)) →
      exec (.nonceCoreid n) s = .next (s.answered (.coreId (BitVec.ofNat 32 c))) ∧
      exec (.nonceScid n) s = .next (s.answered (.smallCoreId (BitVec.ofNat 32 k))) ∧
      exec (.nonceChipaddr n) s = .next (s.answered (.chipAddress (BitVec.ofNat 8 a)))) ∧
    (s.vrEn = true → s.vrMask ≠ 0 → tzc s.vrMask + S ≤ 32 → ∀ n ver,
      n = BitVec.ofNat 32 (c * 2 ^ (32 - C) + a * 2 ^ (24 - C)) → ver = BitVec.ofNat 32 (k * 2 ^ tzc s.vrMask) →
      exec (.nonceCoreid n) s = .next (s.answered (.coreId (BitVec.ofNat 32 c))) ∧
      exec (.nonceScidv ver) s = .next (s.answered (.smallCoreId (BitVec.ofNat 32 k))) ∧
      exec (.nonceChipaddr n) s = .next (s.answered (.chipAddress (BitVec.ofNat 8 a))))

/-- R147: two states of one configuration, mode and mask. -/
def Obligations.RollingDurationFallsAsFrequencyRises : Prop :=
  ∀ (s s' u u' : State) (q q' : Pll) (x x' : Rat),
    s'.cfg = s.cfg → s'.vrEn = s.vrEn → s'.vrMask = s.vrMask → s.plls[0]? = some q → s'.plls[0]? = some q' →
    exec .nonceRolldur s = .next u → exec .nonceRolldur s' = .next u' →
    u.response = some (.result (.duration x)) → u'.response = some (.result (.duration x')) →
    s.fault = none → s'.fault = none →
      0 < x ∧ (preFreqOf q.param / ((q.od[(0 : Tap)]).toNat + 1) <
        preFreqOf q'.param / ((q'.od[(0 : Tap)]).toNat + 1) → x' < x)

/-- R148: no operation decodes the searched bits of a nonce: two nonces that agree above them are decoded alike. -/
def Obligations.SearchedNonceBitsAreNotDecoded : Prop :=
  ∀ (s : State) (n n' : U32) (searched : Nat), s.cfg.nonceFits = true →
    searched = (if s.vrEn then 24 - s.cfg.coreIdBits else 24 - s.cfg.coreIdBits - s.cfg.smallCoreIdBits) →
    n.toNat / 2 ^ searched = n'.toNat / 2 ^ searched → s.fault = none →
      (exec (.nonceCoreid n) s = exec (.nonceCoreid n') s) ∧ (exec (.nonceChipaddr n) s = exec (.nonceChipaddr n') s) ∧
      (s.vrEn = false → exec (.nonceScid n) s = exec (.nonceScid n') s)

/-! ## Version rolling and hash rate -/

/-- R160, the checks in their order. -/
def Obligations.VrEnableSetsModeAndMask : Prop :=
  ∀ (s : State) (m : U32), s.fault = none →
    encode (.chipVrenable m) = ⟨0x30, [.u32 m]⟩ ∧
    (s.cfg.supportsVr = true → m ≠ 0 → exec (.chipVrenable m) s =
      .next { s with vrEn := true, vrMask := m, response := some (.result .ok) }) ∧
    (s.cfg.supportsVr = true → m = 0 →
      exec (.chipVrenable m) s = .next (s.faultedBy (.chipVrenable m) .zeroVersionMask none)) ∧
    (s.cfg.supportsVr = false →
      exec (.chipVrenable m) s = .next (s.faultedBy (.chipVrenable m) .versionRollingUnsupported none))

/-- R31, of its clauses on writes: only VRENABLE writes the mode and the mask, and no step clears vr_en. -/
def Obligations.NoStepClearsVersionRolling : Prop :=
  (∀ s u : State, step s = .next u → s.vrEn = true → u.vrEn = true) ∧
  (∀ (s u : State) (i : Instr), exec i s = .next u → (u.vrEn ≠ s.vrEn ∨ u.vrMask ≠ s.vrMask) → ∃ m, i = .chipVrenable m)

/-- R161, R162. -/
def Obligations.HashRateIsHashFrequencyTimesSmallCores : Prop :=
  ∀ (s : State) (q : Pll), s.fault = none → s.plls[0]? = some q →
    encode .chipHashrate = ⟨0x31, []⟩ ∧
    (bitsOf q.param 15 8 ≠ 0 → exec .chipHashrate s = .next (s.answered (.hashRate
      (preFreqOf q.param / ((q.od[(0 : Tap)]).toNat + 1) * 1000000 * s.cfg.smallCoreCount)))) ∧
    (bitsOf q.param 15 8 = 0 → exec .chipHashrate s = .next (s.faultedBy .chipHashrate .divideByZero none))

/-- R101, R143, R145: the defensive faults are raised in no state of the invariant. -/
def Obligations.DefensiveFaultsAreUnreachable : Prop :=
  ∀ (i : Instr) (s u : State) (r : FaultRecord), LegalState s → s.fault = none → exec i s = .next u → u.fault = some r →
    r.code ≠ .divideByZero ∧ (r.code = .zeroVersionMask → i = .chipVrenable 0)

/-! ## The hash-frequency ramp -/

/-- R163, R164, R165, R167: a ramp whose step frequencies all have a candidate and whose steps fit CMD_CAP returns its
steps, each with its word and delay, in order, and leaves the last word. -/
def Obligations.RampReturnsEveryStep : Prop :=
  ∀ (s : State) (q : Pll) (f start : Rat) (n : Nat), s.fault = none → s.plls[0]? = some q → bitsOf q.param 15 8 ≠ 0 →
    start = preFreqOf q.param / ((q.od[(0 : Tap)]).toNat + 1) → n = rampCount start f → n ≤ s.cfg.cmdCap →
    (∀ k < n, search (rampFreq start f k) s.cfg.rampTol ≠ none) →
      exec (.chipRamp f) s = .next ((s.wroteHashWord q (searchWord f s.cfg.rampTol)).answered
        (.rampSteps ((List.range n).map fun k =>
          ⟨searchWord (rampFreq start f k) s.cfg.rampTol, rampDelay start f k⟩)))

/-- R205, NoDividerFound: the first step without a candidate ends the ramp; the words of the steps before it stay.
R205 allows any value for the hash-PLL word here: keeping it is the model's choice (log entry 12). -/
def Obligations.RampStopsAtAStepWithoutCandidate : Prop :=
  ∀ (s : State) (q : Pll) (f start : Rat) (k : Nat), s.fault = none → s.plls[0]? = some q → bitsOf q.param 15 8 ≠ 0 →
    start = preFreqOf q.param / ((q.od[(0 : Tap)]).toNat + 1) → k < rampCount start f → k < s.cfg.cmdCap →
    (∀ j < k, search (rampFreq start f j) s.cfg.rampTol ≠ none) → search (rampFreq start f k) s.cfg.rampTol = none →
      exec (.chipRamp f) s = .next ((if k = 0 then s
          else s.wroteHashWord q (searchWord (rampFreq start f (k - 1)) s.cfg.rampTol)).faultedBy
        (.chipRamp f) .noDividerFound (some (rampFreq start f k)))

/-- R205, CapacityExceeded: a ramp of more than CMD_CAP steps writes CMD_CAP of them and faults. R205 allows any value
for the hash-PLL word here: keeping it is the model's choice (log entry 12). -/
def Obligations.RampStopsAtItsCapacity : Prop :=
  ∀ (s : State) (q : Pll) (f start : Rat), s.fault = none → s.plls[0]? = some q → bitsOf q.param 15 8 ≠ 0 →
    start = preFreqOf q.param / ((q.od[(0 : Tap)]).toNat + 1) → 1 ≤ s.cfg.cmdCap → s.cfg.cmdCap < rampCount start f →
    (∀ j < s.cfg.cmdCap, search (rampFreq start f j) s.cfg.rampTol ≠ none) →
      exec (.chipRamp f) s = .next ((s.wroteHashWord q
          (searchWord (rampFreq start f (s.cfg.cmdCap - 1)) s.cfg.rampTol)).faultedBy
        (.chipRamp f) .capacityExceeded (some (rampFreq start f (s.cfg.cmdCap - 1))))

/-- R168: from 50 MHz to 75 MHz, for every tolerance above 0 and every capacity of 4 or more. -/
def Obligations.RampFrom50To75HasFourSteps : Prop :=
  ∀ (s : State) (q : Pll), s.fault = none → s.plls[0]? = some q → bitsOf q.param 15 8 ≠ 0 →
    preFreqOf q.param / ((q.od[(0 : Tap)]).toNat + 1) = 50 → 0 < s.cfg.rampTol → 4 ≤ s.cfg.cmdCap →
      exec (.chipRamp 75) s = .next ((s.wroteHashWord q 0xC0A80263).answered
        (.rampSteps [⟨searchWord (225 / 4) s.cfg.rampTol, 400⟩, ⟨searchWord (125 / 2) s.cfg.rampTol, 400⟩,
          ⟨searchWord (275 / 4) s.cfg.rampTol, 400⟩, ⟨0xC0A80263, 400⟩]))

/-- R234, R164: asking again for the same target gives a one-step ramp with the same last word, where the hash tap
does not divide and the tolerance is below a step. -/
def Obligations.RampAskedAgainIsOneStep : Prop :=
  ∀ (s u : State) (q : Pll) (f : Rat), s.fault = none → s.plls[0]? = some q → (q.od[(0 : Tap)]).toNat = 0 →
    s.cfg.rampTol ≤ 25 / 4 → exec (.chipRamp f) s = .next u → u.fault = none →
      exec (.chipRamp f) u = .next (u.answered (.rampSteps
        [⟨searchWord f s.cfg.rampTol, if f ≤ 380 then 400 else 2300⟩]))

/-! ## The transcriber -/

/-- R80: the fields of `pll.configure`, all given and in range, end in the PLL's fields, and nothing else changes. -/
def Obligations.ConfigureSetsEveryGivenField : Prop :=
  ∀ (s : State) (p : U8) (q : Pll) (lock enable : Bool) (fb ref post1 post2 : U32) (t : U8) (v : U32)
    (h : t.toNat < 4), s.fault = none → s.plls[p.toNat]? = some q → fb.toNat ≤ 255 → ref = 1 ∨ ref = 2 →
    1 ≤ post1.toNat → post1.toNat ≤ 7 → 1 ≤ post2.toNat → post2.toNat ≤ 7 → v.toNat ≤ 15 →
      ∃ w : U32, execAll (expandConfigure p
          ⟨some lock, some enable, some fb, some ref, some post1, some post2, [(t, v)]⟩) s =
        .next (s.wrotePll p ⟨w, q.od.set t.toNat (BitVec.ofNat 8 v.toNat)⟩) ∧
      bitsOf w 31 31 = lock.toNat ∧ bitsOf w 30 30 = enable.toNat ∧ bitsOf w 29 24 = bitsOf q.param 29 24 ∧
      bitsOf w 23 16 = fb.toNat ∧ bitsOf w 15 8 = ref.toNat ∧ bitsOf w 7 4 = post1.toNat - 1 ∧
      bitsOf w 3 0 = post2.toNat - 1

/-- R79: a printed instruction is read back as its record; the printed form is the model's (log entry 18). -/
def Obligations.AssemblerReadsWhatItPrints : Prop :=
  ∀ i : Instr, i.wellFormed = true → assemble (print i) = some (encode i)

/-- R53, R54: byte0 is the most significant byte and first on the wire. -/
def Obligations.ParameterWordBytesMostSignificantFirst : Prop :=
  ∀ w : U32, (wordBytes w).map BitVec.toNat = [bitsOf w 31 24, bitsOf w 23 16, bitsOf w 15 8, bitsOf w 7 0]

/-- R201: the numbers of the codes. -/
def Obligations.FaultCodesAreNumberedOneToNine : Prop :=
  ([.illegalOperation, .operandRange, .noDividerFound, .versionRollingUnsupported, .zeroVersionMask, .modeMismatch,
    .zeroHashFrequency, .capacityExceeded, .divideByZero] : List FaultCode).map FaultCode.number =
    [1, 2, 3, 4, 5, 6, 7, 8, 9]
end

