-- ==== Sys2Proof/Laws/Assembler.lean ====
section
/-!
SUPPORT. The assembler: a printed number, operand and operand list are read back as they are (30_encoding.md R79).
-/
namespace Sys2Proof.Laws

open Sys2Proof.Machine

/-- A decimal digit read back is its value. -/
theorem digitOf_digitChar {n : Nat} (h : n < 10) : digitOf 10 (Nat.digitChar n) = some n := by
  interval_cases n <;> decide

/-- The characters of a printed number are decimal digits. -/
theorem mem_toDigits {n : Nat} {c : Char} (h : c ∈ Nat.toDigits 10 n) : ∃ d < 10, c = Nat.digitChar d := by
  induction n using Nat.strong_induction_on with
  | _ n ih =>
    by_cases hn : n < 10
    · rw [Nat.toDigits_of_lt_base hn] at h
      exact ⟨n, hn, by simpa using h⟩
    · rw [Nat.toDigits_of_base_le (by omega) (by omega), List.mem_append] at h
      rcases h with h | h
      · exact ih (n / 10) (by omega) h
      · exact ⟨n % 10, by omega, by simpa using h⟩

/-- A decimal digit is a word character that separates nothing inside a number. -/
theorem digit_char_props {n : Nat} {c : Char} (h : c ∈ Nat.toDigits 10 n) :
    isWordChar c = true ∧ c ≠ '_' ∧ c ≠ '/' ∧ c ≠ '.' ∧ c ≠ '-' ∧ c ≠ 'x' := by
  obtain ⟨d, hd, rfl⟩ := mem_toDigits h
  interval_cases d <;> decide

/-- Digits read one at a time. -/
theorem readDigits_append (acc : Nat) (b : Bool) (cs : List Char) (d a : Nat) (hd : d < 10)
    (h : readDigits 10 b acc cs = some a) : readDigits 10 b acc (cs ++ [Nat.digitChar d]) = some (a * 10 + d) := by
  have hu : Nat.digitChar d ≠ '_' := by interval_cases d <;> decide
  induction cs generalizing acc b with
  | nil =>
    cases b <;> simp [readDigits] at h
    subst h
    simp [readDigits, hu, digitOf_digitChar hd]
  | cons c cs ih =>
    rw [List.cons_append, readDigits]
    rw [readDigits] at h
    split at h
    · rw [if_pos ‹_›]
      split at h
      · rw [if_pos ‹_›]; exact ih _ _ h
      · cases h
    · rw [if_neg ‹_›]
      split at h
      · exact ih _ _ h
      · cases h

/-- A printed number is read back. -/
theorem readDigits_toDigits (n : Nat) : readDigits 10 false 0 (Nat.toDigits 10 n) = some n := by
  induction n using Nat.strong_induction_on with
  | _ n ih =>
    by_cases hn : n < 10
    · rw [Nat.toDigits_of_lt_base hn]
      interval_cases n <;> decide
    · rw [Nat.toDigits_of_base_le (by omega) (by omega), readDigits_append _ _ _ _ _ (by omega) (ih (n / 10) (by omega))]
      congr 1
      omega

/-- A number as an integer operand. -/
theorem readInt_toDigits (n : Nat) : readInt (Nat.toDigits 10 n) = some n := by
  unfold readInt
  split
  · rename_i cs h
    exact absurd rfl (digit_char_props (n := n) (c := 'x') (by rw [h]; simp)).2.2.2.2.2
  · exact readDigits_toDigits n

/-- The first separator splits. -/
theorem splitAtChar_append {c : Char} {cs ds : List Char} (h : c ∉ cs) :
    splitAtChar c (cs ++ c :: ds) = (cs, some ds) := by
  induction cs with
  | nil => simp [splitAtChar]
  | cons x xs ih =>
    simp only [List.mem_cons, not_or] at h
    rw [List.cons_append, splitAtChar, if_neg (Ne.symm h.1), ih h.2]

/-- A printed ratio is read back. -/
theorem readRatio_toDigits (a b : Nat) (hb : b ≠ 0) :
    readRatio (Nat.toDigits 10 a ++ ['/'] ++ Nat.toDigits 10 b) = some ((a : Rat) / b) := by
  unfold readRatio
  rw [List.append_assoc, List.singleton_append, splitAtChar_append fun h => (digit_char_props h).2.2.1 rfl]
  simp [readDigits_toDigits, hb]

/-- A printed rational is read back. -/
theorem readQ_print (x : Rat) :
    readQ ((if x.num < 0 then ['-'] else []) ++ Nat.toDigits 10 x.num.natAbs ++ ['/'] ++ Nat.toDigits 10 x.den) =
      some x := by
  have hd : (x.den : Rat) ≠ 0 := by exact_mod_cast x.den_nz
  have hx : (x.num : Rat) / x.den = x := Rat.num_div_den x
  by_cases h : x.num < 0
  · rw [if_pos h]
    simp only [List.cons_append, readQ]
    have e : ((x.num.natAbs : Nat) : Rat) = -(x.num : Rat) := by
      rw [← Int.cast_natCast, show (x.num.natAbs : Int) = -x.num by omega, Int.cast_neg]
    have := readRatio_toDigits x.num.natAbs x.den x.den_nz
    simp only [List.append_assoc, List.singleton_append, List.nil_append] at this ⊢
    rw [this, e, Option.map_some, neg_div, neg_neg, hx]
  · rw [if_neg h, List.nil_append]
    have e : ((x.num.natAbs : Nat) : Rat) = (x.num : Rat) := by
      rw [← Int.cast_natCast, show (x.num.natAbs : Int) = x.num by omega]
    have hne : ∀ cs, Nat.toDigits 10 x.num.natAbs ++ ['/'] ++ Nat.toDigits 10 x.den ≠ '-' :: cs := by
      intro cs hc
      cases hl : Nat.toDigits 10 x.num.natAbs with
      | nil => rw [hl] at hc; simp at hc
      | cons c l =>
        rw [hl] at hc
        simp only [List.cons_append, List.cons.injEq] at hc
        exact (digit_char_props (n := x.num.natAbs) (c := c) (by rw [hl]; simp)).2.2.2.2.1 hc.1
    unfold readQ
    split
    · exact absurd ‹_› (hne _)
    · rw [readRatio_toDigits _ _ x.den_nz, e, hx]

/-- Every printed operand of a type is read back as it. -/
theorem readOperand_print {k : OperandKind} {o : Operand} (h : k.admits o = true) :
    readOperand k (printOperand o) = some o := by
  have hq := readQ_print
  cases k <;> cases o <;> simp only [OperandKind.admits, Bool.false_eq_true, decide_eq_true_eq] at h
  · rename_i v; simp [readOperand, printOperand, readInt_toDigits, v.isLt]
  · rename_i v; simp [readOperand, printOperand, readInt_toDigits, v.isLt]
  · rename_i v
    rw [readOperand, printOperand, hq v]
    simp [h]
  · rename_i v
    rw [readOperand, printOperand, hq v]
    rfl

/-- A printed operand is one run of word characters. -/
theorem printOperand_word (o : Operand) : printOperand o ≠ [] ∧ ∀ c ∈ printOperand o, isWordChar c = true := by
  have hd : ∀ n : Nat, Nat.toDigits 10 n ≠ [] := by
    intro n h
    have := readDigits_toDigits n
    rw [h] at this
    cases this
  cases o with
  | u8 v => exact ⟨hd _, fun c h => (digit_char_props h).1⟩
  | u32 v => exact ⟨hd _, fun c h => (digit_char_props h).1⟩
  | q x =>
    refine ⟨by simp [printOperand], fun c h => ?_⟩
    simp only [printOperand, List.mem_append, List.mem_singleton] at h
    rcases h with ((h | h) | h) | h
    · split at h
      · rw [List.mem_singleton.mp h]; decide
      · cases h
    · exact (digit_char_props h).1
    · rw [h]; decide
    · exact (digit_char_props h).1

/-- Word characters are collected into the run. -/
theorem lex_word {ws : List Char} (h : ∀ c ∈ ws, isWordChar c = true) (run cs : List Char) :
    lex run (ws ++ cs) = lex (run ++ ws) cs := by
  induction ws generalizing run with
  | nil => simp
  | cons c ws ih =>
    rw [List.cons_append, lex, if_pos (h c (by simp)), ih (fun c hc => h c (by simp [hc]))]
    simp

/-- The tokens of printed operands: words, with a comma between two. -/
def operandTokens : List Operand → List Token
  | [] => []
  | [o] => [.word (printOperand o)]
  | o :: os => .word (printOperand o) :: .mark ',' :: operandTokens os

/-- Printed operands are their tokens. -/
theorem lex_printOperands (run : List Char) (os : List Operand) :
    lex run (printOperands os) = some (flush run (operandTokens os)) := by
  have hsp : isWordChar ' ' = false := by decide
  have hcm : isWordChar ',' = false := by decide
  have hmk : isMark ',' = true := by decide
  induction os generalizing run with
  | nil => simp [printOperands, lex, operandTokens]
  | cons o os ih =>
    obtain ⟨hne, hw⟩ := printOperand_word o
    cases os with
    | nil =>
      have e : lex [] (printOperand o) = some [.word (printOperand o)] := by
        have := lex_word hw [] []
        simp only [List.append_nil, List.nil_append] at this
        rw [this]
        simp [lex, flush, hne]
      simp [printOperands, lex, hsp, e, operandTokens]
    | cons o' os =>
      have e := lex_word hw [] (',' :: printOperands (o' :: os))
      rw [List.nil_append, lex, if_neg (by simp [hcm]), if_neg (by decide), if_pos hmk, ih] at e
      rw [printOperands, List.append_assoc, List.cons_append, lex, if_neg (by simp [hsp]), if_pos rfl,
        List.singleton_append, e]
      · simp [flush, hne, operandTokens]
      · simp

/-- The operands of a format, printed, are read back as they are. -/
theorem readOperands_print {ks : List OperandKind} {os : List Operand} (h : conforms ks os = true) :
    readOperands ks (operandTokens os) = some os := by
  induction ks generalizing os with
  | nil => cases os <;> simp_all [conforms, operandTokens, readOperands]
  | cons k ks ih =>
    cases os with
    | nil => cases h
    | cons o os =>
      simp only [conforms, Bool.and_eq_true] at h
      cases os with
      | nil =>
        cases ks with
        | nil => simp [operandTokens, readOperands, readOperand_print h.1]
        | cons k' ks => cases h.2
      | cons o' os =>
        cases ks with
        | nil => cases h.2
        | cons k' ks => simp [operandTokens, readOperands, readOperand_print h.1, ih h.2]

end Sys2Proof.Laws
end

