-- ==== Sys2Proof/Laws/ParamWord.lean ====
section
/-!
SUPPORT. The bit fields of the parameter word: what a field write leaves in every bit, the fields as numbers, and the
frequency in terms of them (30_encoding.md R71, 40_pll.md R101).
-/
namespace Sys2Proof.Laws

open Sys2Proof.Machine

/-- Every bit of a word after a field write: the new field inside it, the old word outside. -/
theorem getLsbD_setField (w : U32) (lo : Nat) {n : Nat} (v : BitVec n) (i : Nat) (hi : i < 32) :
    (setField w lo v).getLsbD i = if lo ≤ i ∧ i < lo + n then v.getLsbD (i - lo) else w.getLsbD i := by
  unfold setField
  by_cases h1 : i < lo
  · have : ¬ lo ≤ i := by omega
    simp [hi, h1, this]
  · by_cases h2 : i < lo + n
    · have h3 : i - lo < n := by omega
      have h4 : lo ≤ i := by omega
      simp [hi, h1, h2, h3, h4]
    · have h3 : ¬ i - lo < n := by omega
      have h4 : lo ≤ i := by omega
      have h5 : v.getLsbD (i - lo) = false := BitVec.getLsbD_of_ge v _ (by omega)
      simp [hi, h1, h2, h3, h4, h5]

/-- A field of a word as a number is `bitsOf`. -/
theorem toNat_field (w : U32) (lo n : Nat) : (w.extractLsb' lo n).toNat = w.toNat / 2 ^ lo % 2 ^ n := by
  simp [BitVec.extractLsb'_toNat, Nat.shiftRight_eq_div_pow]

/-- A field write leaves every field outside it. -/
theorem bitsOf_setField_outside (w : U32) (lo : Nat) {n : Nat} (v : BitVec n) (hi' lo' : Nat) (h : hi' < 32)
    (hl : lo' ≤ hi') (hd : hi' < lo ∨ lo + n ≤ lo') : bitsOf (setField w lo v) hi' lo' = bitsOf w hi' lo' := by
  unfold bitsOf
  rw [← toNat_field, ← toNat_field]
  congr 1
  apply BitVec.eq_of_getLsbD_eq
  intro i hi
  rw [BitVec.getLsbD_extractLsb', BitVec.getLsbD_extractLsb', getLsbD_setField _ _ _ _ (by omega)]
  have : ¬ (lo ≤ lo' + i ∧ lo' + i < lo + n) := by omega
  simp [this]

/-- A field write writes its field. -/
theorem bitsOf_setField_same (w : U32) (lo : Nat) {n : Nat} (v : BitVec n) (h : lo + n ≤ 32) (hn : 0 < n) :
    bitsOf (setField w lo v) (lo + n - 1) lo = v.toNat := by
  unfold bitsOf
  rw [show lo + n - 1 - lo + 1 = n by omega, ← toNat_field]
  congr 1
  apply BitVec.eq_of_getLsbD_eq
  intro i hi
  rw [BitVec.getLsbD_extractLsb', getLsbD_setField _ _ _ _ (by omega)]
  simp [hi]

theorem fbField_toNat (w : U32) : (fbField w).toNat = bitsOf w 23 16 := toNat_field w 16 8

theorem refField_toNat (w : U32) : (refField w).toNat = bitsOf w 15 8 := toNat_field w 8 8

theorem post1Field_toNat (w : U32) : (post1Field w).toNat = bitsOf w 7 4 := toNat_field w 4 4

theorem post2Field_toNat (w : U32) : (post2Field w).toNat = bitsOf w 3 0 := toNat_field w 0 4

theorem preFreq_eq (w : U32) : preFreq w = preFreqOf w := by
  simp [preFreq, preFreqOf, Config.fIn, fbField_toNat, refField_toNat, post1Field_toNat, post2Field_toNat]

theorem refField_eq_zero (w : U32) : refField w = 0 ↔ bitsOf w 15 8 = 0 := by
  rw [← refField_toNat]
  exact BitVec.toNat_eq

/-- The tap frequency where it is defined (R101). -/
theorem tapFreq_of_ref (q : Pll) (t : Tap) (h : bitsOf q.param 15 8 ≠ 0) :
    tapFreq q t = some (preFreqOf q.param / ((q.od[t]).toNat + 1)) := by
  rw [tapFreq, if_neg (mt (refField_eq_zero _).mp h), preFreq_eq]

/-- The tap frequency where it is undefined (R101). -/
theorem tapFreq_of_ref_zero (q : Pll) (t : Tap) (h : bitsOf q.param 15 8 = 0) : tapFreq q t = none := by
  rw [tapFreq, if_pos ((refField_eq_zero _).mpr h)]

/-- The legal contents of a PLL as numbers (10_state.md R25). -/
theorem pllLegal_iff (q : Pll) : pllLegal q = true ↔
    (bitsOf q.param 15 8 = 1 ∨ bitsOf q.param 15 8 = 2) ∧ bitsOf q.param 7 4 ≤ 6 ∧ bitsOf q.param 3 0 ≤ 6 ∧
      ∀ t : Tap, (q.od[t]).toNat ≤ 15 := by
  simp only [pllLegal, decide_eq_true_eq, post1Field_toNat, post2Field_toNat, ← refField_toNat]
  simp [BitVec.toNat_eq]

end Sys2Proof.Laws
end

