-- ==== Sys2Proof/Laws/State.lean ====
section
/-!
SUPPORT. One lemma a field and update of the state: what each update does to each field, true by `rfl`.
-/
namespace Sys2Proof.Laws

open Sys2Proof.Machine

/-! ### setParam -/

@[simp] theorem setParam_cfg (s : State) (p : Nat) (w : U32) : (setParam s p w).cfg = s.cfg := rfl

@[simp] theorem setParam_plls (s : State) (p : Nat) (w : U32) : (setParam s p w).plls = s.plls.modify p fun q => { q with param := w } := rfl

@[simp] theorem setParam_vrEn (s : State) (p : Nat) (w : U32) : (setParam s p w).vrEn = s.vrEn := rfl

@[simp] theorem setParam_vrMask (s : State) (p : Nat) (w : U32) : (setParam s p w).vrMask = s.vrMask := rfl

@[simp] theorem setParam_fault (s : State) (p : Nat) (w : U32) : (setParam s p w).fault = s.fault := rfl

@[simp] theorem setParam_response (s : State) (p : Nat) (w : U32) : (setParam s p w).response = s.response := rfl

@[simp] theorem setParam_pending (s : State) (p : Nat) (w : U32) : (setParam s p w).pending = s.pending := rfl

/-! ### setOutDiv -/

@[simp] theorem setOutDiv_cfg (s : State) (p : Nat) (t : Tap) (v : U8) : (setOutDiv s p t v).cfg = s.cfg := rfl

@[simp] theorem setOutDiv_plls (s : State) (p : Nat) (t : Tap) (v : U8) : (setOutDiv s p t v).plls = s.plls.modify p fun q => { q with od := q.od.set t v } := rfl

@[simp] theorem setOutDiv_vrEn (s : State) (p : Nat) (t : Tap) (v : U8) : (setOutDiv s p t v).vrEn = s.vrEn := rfl

@[simp] theorem setOutDiv_vrMask (s : State) (p : Nat) (t : Tap) (v : U8) : (setOutDiv s p t v).vrMask = s.vrMask := rfl

@[simp] theorem setOutDiv_fault (s : State) (p : Nat) (t : Tap) (v : U8) : (setOutDiv s p t v).fault = s.fault := rfl

@[simp] theorem setOutDiv_response (s : State) (p : Nat) (t : Tap) (v : U8) : (setOutDiv s p t v).response = s.response := rfl

@[simp] theorem setOutDiv_pending (s : State) (p : Nat) (t : Tap) (v : U8) : (setOutDiv s p t v).pending = s.pending := rfl

/-! ### setVersionRolling -/

@[simp] theorem setVersionRolling_cfg (s : State) (m : U32) : (setVersionRolling s m).cfg = s.cfg := rfl

@[simp] theorem setVersionRolling_plls (s : State) (m : U32) : (setVersionRolling s m).plls = s.plls := rfl

@[simp] theorem setVersionRolling_vrEn (s : State) (m : U32) : (setVersionRolling s m).vrEn = true := rfl

@[simp] theorem setVersionRolling_vrMask (s : State) (m : U32) : (setVersionRolling s m).vrMask = m := rfl

@[simp] theorem setVersionRolling_fault (s : State) (m : U32) : (setVersionRolling s m).fault = s.fault := rfl

@[simp] theorem setVersionRolling_response (s : State) (m : U32) : (setVersionRolling s m).response = s.response := rfl

@[simp] theorem setVersionRolling_pending (s : State) (m : U32) : (setVersionRolling s m).pending = s.pending := rfl

/-! ### respond -/

@[simp] theorem respond_cfg (s : State) (r : Response) : (respond s r).cfg = s.cfg := rfl

@[simp] theorem respond_plls (s : State) (r : Response) : (respond s r).plls = s.plls := rfl

@[simp] theorem respond_vrEn (s : State) (r : Response) : (respond s r).vrEn = s.vrEn := rfl

@[simp] theorem respond_vrMask (s : State) (r : Response) : (respond s r).vrMask = s.vrMask := rfl

@[simp] theorem respond_fault (s : State) (r : Response) : (respond s r).fault = s.fault := rfl

@[simp] theorem respond_response (s : State) (r : Response) : (respond s r).response = some r := rfl

@[simp] theorem respond_pending (s : State) (r : Response) : (respond s r).pending = s.pending := rfl

/-! ### takeFault -/

@[simp] theorem takeFault_cfg (s : State) (r : FaultRecord) : (takeFault s r).cfg = s.cfg := rfl

@[simp] theorem takeFault_plls (s : State) (r : FaultRecord) : (takeFault s r).plls = s.plls := rfl

@[simp] theorem takeFault_vrEn (s : State) (r : FaultRecord) : (takeFault s r).vrEn = s.vrEn := rfl

@[simp] theorem takeFault_vrMask (s : State) (r : FaultRecord) : (takeFault s r).vrMask = s.vrMask := rfl

@[simp] theorem takeFault_fault (s : State) (r : FaultRecord) : (takeFault s r).fault = some r := rfl

@[simp] theorem takeFault_response (s : State) (r : FaultRecord) : (takeFault s r).response = some (.fault r) := rfl

@[simp] theorem takeFault_pending (s : State) (r : FaultRecord) : (takeFault s r).pending = s.pending := rfl

/-! ### presentNext -/

@[simp] theorem presentNext_cfg (s : State) (rec : OpRecord) : (presentNext s rec).cfg = s.cfg := rfl

@[simp] theorem presentNext_plls (s : State) (rec : OpRecord) : (presentNext s rec).plls = s.plls := rfl

@[simp] theorem presentNext_vrEn (s : State) (rec : OpRecord) : (presentNext s rec).vrEn = s.vrEn := rfl

@[simp] theorem presentNext_vrMask (s : State) (rec : OpRecord) : (presentNext s rec).vrMask = s.vrMask := rfl

@[simp] theorem presentNext_fault (s : State) (rec : OpRecord) : (presentNext s rec).fault = s.fault := rfl

@[simp] theorem presentNext_response (s : State) (rec : OpRecord) : (presentNext s rec).response = s.response := rfl

@[simp] theorem presentNext_pending (s : State) (rec : OpRecord) : (presentNext s rec).pending = rec :: s.pending.tail := rfl

/-! ### answered -/

@[simp] theorem answered_cfg (s : State) (r : Result) : (State.answered s r).cfg = s.cfg := rfl

@[simp] theorem answered_plls (s : State) (r : Result) : (State.answered s r).plls = s.plls := rfl

@[simp] theorem answered_vrEn (s : State) (r : Result) : (State.answered s r).vrEn = s.vrEn := rfl

@[simp] theorem answered_vrMask (s : State) (r : Result) : (State.answered s r).vrMask = s.vrMask := rfl

@[simp] theorem answered_fault (s : State) (r : Result) : (State.answered s r).fault = s.fault := rfl

@[simp] theorem answered_response (s : State) (r : Result) : (State.answered s r).response = some (.result r) := rfl

@[simp] theorem answered_pending (s : State) (r : Result) : (State.answered s r).pending = s.pending := rfl

/-! ### faultedBy -/

@[simp] theorem faultedBy_cfg (s : State) (i : Instr) (c : FaultCode) (d : Option Rat) : (State.faultedBy s i c d).cfg = s.cfg := rfl

@[simp] theorem faultedBy_plls (s : State) (i : Instr) (c : FaultCode) (d : Option Rat) : (State.faultedBy s i c d).plls = s.plls := rfl

@[simp] theorem faultedBy_vrEn (s : State) (i : Instr) (c : FaultCode) (d : Option Rat) : (State.faultedBy s i c d).vrEn = s.vrEn := rfl

@[simp] theorem faultedBy_vrMask (s : State) (i : Instr) (c : FaultCode) (d : Option Rat) : (State.faultedBy s i c d).vrMask = s.vrMask := rfl

@[simp] theorem faultedBy_fault (s : State) (i : Instr) (c : FaultCode) (d : Option Rat) : (State.faultedBy s i c d).fault = some ⟨c, encode i, d⟩ := rfl

@[simp] theorem faultedBy_response (s : State) (i : Instr) (c : FaultCode) (d : Option Rat) : (State.faultedBy s i c d).response = some (.fault ⟨c, encode i, d⟩) := rfl

@[simp] theorem faultedBy_pending (s : State) (i : Instr) (c : FaultCode) (d : Option Rat) : (State.faultedBy s i c d).pending = s.pending := rfl

/-! ### wrotePll -/

@[simp] theorem wrotePll_cfg (s : State) (p : U8) (q : Pll) : (State.wrotePll s p q).cfg = s.cfg := rfl

@[simp] theorem wrotePll_plls (s : State) (p : U8) (q : Pll) : (State.wrotePll s p q).plls = s.plls.set p.toNat q := rfl

@[simp] theorem wrotePll_vrEn (s : State) (p : U8) (q : Pll) : (State.wrotePll s p q).vrEn = s.vrEn := rfl

@[simp] theorem wrotePll_vrMask (s : State) (p : U8) (q : Pll) : (State.wrotePll s p q).vrMask = s.vrMask := rfl

@[simp] theorem wrotePll_fault (s : State) (p : U8) (q : Pll) : (State.wrotePll s p q).fault = s.fault := rfl

@[simp] theorem wrotePll_response (s : State) (p : U8) (q : Pll) : (State.wrotePll s p q).response = some (.result .ok) := rfl

@[simp] theorem wrotePll_pending (s : State) (p : U8) (q : Pll) : (State.wrotePll s p q).pending = s.pending := rfl

/-! ### wroteHashWord -/

@[simp] theorem wroteHashWord_cfg (s : State) (q : Pll) (w : U32) : (State.wroteHashWord s q w).cfg = s.cfg := rfl

@[simp] theorem wroteHashWord_plls (s : State) (q : Pll) (w : U32) : (State.wroteHashWord s q w).plls = s.plls.set 0 { q with param := w } := rfl

@[simp] theorem wroteHashWord_vrEn (s : State) (q : Pll) (w : U32) : (State.wroteHashWord s q w).vrEn = s.vrEn := rfl

@[simp] theorem wroteHashWord_vrMask (s : State) (q : Pll) (w : U32) : (State.wroteHashWord s q w).vrMask = s.vrMask := rfl

@[simp] theorem wroteHashWord_fault (s : State) (q : Pll) (w : U32) : (State.wroteHashWord s q w).fault = s.fault := rfl

@[simp] theorem wroteHashWord_response (s : State) (q : Pll) (w : U32) : (State.wroteHashWord s q w).response = s.response := rfl

@[simp] theorem wroteHashWord_pending (s : State) (q : Pll) (w : U32) : (State.wroteHashWord s q w).pending = s.pending := rfl

/-! ### reset -/

@[simp] theorem resetOf_cfg (c : Config) : (State.resetOf c).cfg = c := rfl

@[simp] theorem resetOf_plls (c : Config) : (State.resetOf c).plls = c.pllDefaults := rfl

@[simp] theorem resetOf_vrEn (c : Config) : (State.resetOf c).vrEn = false := rfl

@[simp] theorem resetOf_vrMask (c : Config) : (State.resetOf c).vrMask = c.defaultVersionMask := rfl

@[simp] theorem resetOf_fault (c : Config) : (State.resetOf c).fault = none := rfl

@[simp] theorem resetOf_response (c : Config) : (State.resetOf c).response = none := rfl

@[simp] theorem resetOf_pending (c : Config) : (State.resetOf c).pending = [] := rfl

/-- Two states with the same fields are one state. -/
theorem state_ext {s t : State} (h₁ : s.cfg = t.cfg) (h₂ : s.plls = t.plls) (h₃ : s.vrEn = t.vrEn)
    (h₄ : s.vrMask = t.vrMask) (h₅ : s.fault = t.fault) (h₆ : s.response = t.response)
    (h₇ : s.pending = t.pending) : s = t := by
  cases s; cases t; simp_all

end Sys2Proof.Laws
end

