-- ==== Sys2Proof/Laws/Ops.lean ====
section
/-!
SUPPORT. The shared operations: everything `transact`, the operand checks and the hash frequency can do, so that no
proof unfolds them (60_exceptions.md R200, R202, R203; 40_pll.md R100).
-/
namespace Sys2Proof.Laws

open Sys2Proof.Machine

variable {s u : State} {rec : OpRecord} {body : State → OpEnd}

/-- A faulted block refuses the operation and repeats its record (R202). -/
theorem transact_of_fault {r : FaultRecord} (h : s.fault = some r) :
    transact rec body s = .next (respond s (.fault r)) := by simp [transact, h]

theorem transact_of_done {r : Result} {t : State} (h : s.fault = none) (hb : body s = .done r t) :
    transact rec body s = .next (respond t (.result r)) := by simp [transact, h, hb]

theorem transact_of_raised {c : FaultCode} {d : Option Rat} {t : State} (h : s.fault = none)
    (hb : body s = .raised c d t) : transact rec body s = .next (takeFault t ⟨c, rec, d⟩) := by
  simp [transact, h, hb]

/-- Everything one operation can do: the record repeated, a result, or a fault taken. -/
theorem transact_cases (h : transact rec body s = .next u) :
    (∃ r, s.fault = some r ∧ u = respond s (.fault r)) ∨
    (s.fault = none ∧ ∃ r t, body s = .done r t ∧ u = respond t (.result r)) ∨
    (s.fault = none ∧ ∃ c d t, body s = .raised c d t ∧ u = takeFault t ⟨c, rec, d⟩) := by
  unfold transact at h
  split at h
  · exact .inl ⟨_, ‹_›, by simpa using h.symm⟩
  · split at h
    · exact .inr (.inl ⟨‹_›, _, _, ‹_›, by simpa using h.symm⟩)
    · exact .inr (.inr ⟨‹_›, _, _, _, ‹_›, by simpa using h.symm⟩)

/-- An operation always gives a next state with a response. -/
theorem transact_answers (rec : OpRecord) (body : State → OpEnd) (s : State) :
    ∃ u r, transact rec body s = .next u ∧ u.response = some r := by
  unfold transact
  split
  · exact ⟨_, _, rfl, rfl⟩
  · split <;> exact ⟨_, _, rfl, rfl⟩

theorem withPll_of_some {p : U8} {q : Pll} {k : Pll → OpEnd} (h : s.plls[p.toNat]? = some q) :
    withPll s p k = k q := by simp [withPll, h]

theorem withPll_of_ge {p : U8} {k : Pll → OpEnd} (h : s.plls.length ≤ p.toNat) :
    withPll s p k = .raised .operandRange none s := by simp [withPll, List.getElem?_eq_none h]

/-- Everything the check of a PLL index can do (R100). -/
theorem withPll_cases (s : State) (p : U8) (k : Pll → OpEnd) :
    (s.plls.length ≤ p.toNat ∧ withPll s p k = .raised .operandRange none s) ∨
    ∃ q, s.plls[p.toNat]? = some q ∧ withPll s p k = k q := by
  cases h : s.plls[p.toNat]? with
  | none => exact .inl ⟨List.getElem?_eq_none_iff.mp h, by simp [withPll, h]⟩
  | some q => exact .inr ⟨q, rfl, by simp [withPll, h]⟩

theorem withTap_of_lt {t : U8} {k : Tap → OpEnd} (h : t.toNat < 4) : withTap s t k = k ⟨t.toNat, h⟩ := by
  simp [withTap, h]

theorem withTap_of_ge {t : U8} {k : Tap → OpEnd} (h : 4 ≤ t.toNat) :
    withTap s t k = .raised .operandRange none s := by simp [withTap, Nat.not_lt.mpr h]

/-- Everything the check of a tap can do (R100). -/
theorem withTap_cases (s : State) (t : U8) (k : Tap → OpEnd) :
    (4 ≤ t.toNat ∧ withTap s t k = .raised .operandRange none s) ∨
    ∃ h : t.toNat < 4, withTap s t k = k ⟨t.toNat, h⟩ := by
  by_cases h : t.toNat < 4
  · exact .inr ⟨h, withTap_of_lt h⟩
  · exact .inl ⟨by omega, withTap_of_ge (by omega)⟩

theorem withValue_of_in {v : U32} {lo hi : Nat} {k : OpEnd} (h : lo ≤ v.toNat ∧ v.toNat ≤ hi) :
    withValue s v lo hi k = k := by simp [withValue, h]

theorem withValue_of_out {v : U32} {lo hi : Nat} {k : OpEnd} (h : ¬ (lo ≤ v.toNat ∧ v.toNat ≤ hi)) :
    withValue s v lo hi k = .raised .operandRange none s := by simp [withValue, h]

theorem hashFrequency_of_ref {q : Pll} (hq : s.plls[0]? = some q) (h : bitsOf q.param 15 8 ≠ 0) :
    hashFrequency s = some (preFreqOf q.param / ((q.od[(0 : Tap)]).toNat + 1)) := by
  simp [hashFrequency, Config.hashPll, hq, tapFreq_of_ref q _ h, Config.hashTap]

theorem hashFrequency_of_ref_zero {q : Pll} (hq : s.plls[0]? = some q) (h : bitsOf q.param 15 8 = 0) :
    hashFrequency s = none := by
  simp [hashFrequency, Config.hashPll, hq, tapFreq_of_ref_zero q _ h]

/-- Everything the need of the hash frequency can do (R101, R162). -/
theorem withHashFrequency_cases (s : State) (k : Rat → OpEnd) :
    (hashFrequency s = none ∧ withHashFrequency s k = .raised .divideByZero none s) ∨
    ∃ f, hashFrequency s = some f ∧ withHashFrequency s k = k f := by
  cases h : hashFrequency s with
  | none => exact .inl ⟨rfl, by simp [withHashFrequency, h]⟩
  | some f => exact .inr ⟨f, rfl, by simp [withHashFrequency, h]⟩

/-- Modifying a present entry is setting it. -/
theorem modify_eq_set {α : Type} {l : List α} {k : Nat} {a : α} {f : α → α} (h : l[k]? = some a) :
    l.modify k f = l.set k (f a) := by
  apply List.ext_getElem?
  intro j
  by_cases hj : k = j
  · subst hj
    obtain ⟨hk, rfl⟩ := List.getElem?_eq_some_iff.mp h
    simp [hk]
  · simp [hj]

/-- Writing a PLL's word is setting the PLL. -/
theorem setParam_eq_set {p : Nat} {q : Pll} {w : U32} (h : s.plls[p]? = some q) :
    setParam s p w = { s with plls := s.plls.set p { q with param := w } } := by
  refine state_ext rfl ?_ rfl rfl rfl rfl rfl
  exact modify_eq_set h

/-- Writing an output divider is setting the PLL. -/
theorem setOutDiv_eq_set {p : Nat} {q : Pll} {t : Tap} {v : U8} (h : s.plls[p]? = some q) :
    setOutDiv s p t v = { s with plls := s.plls.set p { q with od := q.od.set t v } } := by
  refine state_ext rfl ?_ rfl rfl rfl rfl rfl
  exact modify_eq_set h

theorem tzc_eq {x : U32} {k : Nat} (h : x.getLsbD k = true) (hk : ∀ j < k, x.getLsbD j = false) : tzc x = k := by
  have hlt : k < 32 := by
    by_contra hc
    simp [BitVec.getLsbD_of_ge x k (by omega)] at h
  have : (List.range 32).find? (fun i => x.getLsbD i) = some k := by
    rw [List.find?_range_eq_some]
    refine ⟨h, by simpa using hlt, fun j hj => by simp [hk j hj]⟩
  simp [tzc, this]

/-- The number of set bits as a cardinality (00_scope.md R12). -/
theorem popcount_eq_card (x : U32) :
    popcount x = (Finset.univ.filter fun k : Fin 32 => x.getLsbD k = true).card := by
  have h : popcount x = Nat.count (fun i => x.getLsbD i = true) 32 := by
    simp [popcount, Nat.count]
  rw [h, Nat.count_eq_card_filter_range, Finset.card_filter, Finset.sum_range, Finset.card_filter]

/-- Masking with MASK_S keeps the low S bits (41_nonce_decoder.md R142). -/
theorem toNat_and_smallCoreMask (s : State) (x : U32) (h : s.cfg.smallCoreIdBits ≤ 31) :
    (x &&& smallCoreMask s).toNat = x.toNat % 2 ^ s.cfg.smallCoreIdBits := by
  have hm : (smallCoreMask s).toNat = 2 ^ s.cfg.smallCoreIdBits - 1 := by
    unfold smallCoreMask
    generalize s.cfg.smallCoreIdBits = k at *
    interval_cases k <;> rfl
  rw [BitVec.toNat_and, hm, Nat.and_two_pow_sub_one_eq_mod]

end Sys2Proof.Laws
end

