-- ==== Sys2Proof/Laws/Search.lean ====
section
/-!
SUPPORT. The divider search: what its visiting order holds, and that what it returns is an accepted candidate of a
visited combination (40_pll.md R104, R105).
-/
namespace Sys2Proof.Laws

open Sys2Proof.Machine

theorem mem_postOrder {n : Nat} : n ∈ postOrder ↔ 1 ≤ n ∧ n ≤ 7 := by
  simp only [postOrder, List.mem_cons, List.not_mem_nil, or_false]
  omega

/-- The 98 combinations of R104. -/
theorem mem_visitOrder {ref p1 p2 : Nat} : (ref, p1, p2) ∈ visitOrder ↔
    (ref = 1 ∨ ref = 2) ∧ (1 ≤ p1 ∧ p1 ≤ 7) ∧ (1 ≤ p2 ∧ p2 ≤ 7) := by
  simp only [visitOrder, List.mem_flatMap, List.mem_map, mem_postOrder, List.mem_cons, List.not_mem_nil, or_false,
    Prod.mk.injEq]
  constructor
  · rintro ⟨r, hr, a, ha, b, hb, rfl, rfl, rfl⟩
    exact ⟨hr.symm, ha, hb⟩
  · rintro ⟨hr, ha, hb⟩
    exact ⟨ref, hr.symm, p1, ha, p2, hb, rfl, rfl, rfl⟩

/-- ACCEPT (R105) as a proposition. -/
theorem accept_iff {target tol : Rat} {d : Dividers} : accept target tol d = true ↔
    0xA0 ≤ d.fb ∧ d.fb ≤ 0xEF ∧ |target - achieved d| < tol ∧ d.p2 ≤ d.p1 := by
  simp only [accept, Bool.and_eq_true, decide_eq_true_eq]
  exact ⟨fun ⟨⟨⟨hlo, hhi⟩, htol⟩, hle⟩ => ⟨hlo, hhi, htol, hle⟩, fun ⟨hlo, hhi, htol, hle⟩ => ⟨⟨⟨hlo, hhi⟩, htol⟩, hle⟩⟩

/-- BETTER (R106) as a proposition, where there is a best so far. -/
theorem better_iff {d b : Dividers} : better d (some b) = true ↔
    d.p1 * d.p2 < b.p1 * b.p2 ∨ (d.p1 * d.p2 = b.p1 * b.p2 ∧ d.p2 < b.p2) := by
  simp only [better, decide_eq_true_eq]

/-- The feedback divider and the achieved frequency of a combination depend on D = ref * p1 * p2 only (R104). -/
theorem candidate_fb_achieved (target : Rat) (ref p1 p2 : Nat) :
    (candidate target (ref, p1, p2)).fb = ⌊target * (ref * p1 * p2) / 25 + 1 / 2⌋ ∧
    achieved (candidate target (ref, p1, p2)) =
      25 * (⌊target * (ref * p1 * p2) / 25 + 1 / 2⌋ : Int) / (ref * p1 * p2) := by
  constructor <;> simp [candidate, achieved, roundHalfUp, Config.fIn] <;> rfl

/-- One visit keeps the best so far or replaces it by the accepted candidate it visits. -/
theorem consider_cases (target tol : Rat) (best : Option Dividers) (c : Nat × Nat × Nat) :
    consider target tol best c = best ∨
    (consider target tol best c = some (candidate target c) ∧ accept target tol (candidate target c) = true) := by
  unfold consider
  split
  · exact .inr ⟨rfl, by simp_all⟩
  · exact .inl rfl

/-- A fold of visits ends in its start or in an accepted candidate of a visited combination. -/
theorem foldl_consider_sound (target tol : Rat) (cs : List (Nat × Nat × Nat)) (best : Option Dividers) {d : Dividers}
    (h : cs.foldl (consider target tol) best = some d) :
    best = some d ∨ ∃ c ∈ cs, d = candidate target c ∧ accept target tol d = true := by
  induction cs generalizing best with
  | nil => exact .inl h
  | cons c cs ih =>
    rcases ih _ h with h' | ⟨c', hc', hd⟩
    · rcases consider_cases target tol best c with hb | ⟨hb, ha⟩
      · exact .inl (hb ▸ h')
      · rw [hb, Option.some.injEq] at h'
        exact .inr ⟨c, by simp, h'.symm, h' ▸ ha⟩
    · exact .inr ⟨c', by simp [hc'], hd⟩

/-- What SEARCH returns is an accepted candidate of one of the 98 combinations (R104, R105). -/
theorem search_sound {target tol : Rat} {d : Dividers} (h : search target tol = some d) :
    ∃ c ∈ visitOrder, d = candidate target c ∧ accept target tol d = true := by
  rcases foldl_consider_sound target tol visitOrder none h with h' | h'
  · cases h'
  · exact h'

/-- The bounds of a search result (R105). -/
theorem search_bounds {target tol : Rat} {d : Dividers} (h : search target tol = some d) :
    (d.ref = 1 ∨ d.ref = 2) ∧ 1 ≤ d.p2 ∧ d.p2 ≤ d.p1 ∧ d.p1 ≤ 7 ∧ 0xA0 ≤ d.fb ∧ d.fb ≤ 0xEF ∧
      |target - achieved d| < tol := by
  obtain ⟨⟨ref, p1, p2⟩, hc, rfl, ha⟩ := search_sound h
  obtain ⟨hr, h1, h2⟩ := mem_visitOrder.mp hc
  obtain ⟨hlo, hhi, htol, hle⟩ := accept_iff.mp ha
  exact ⟨hr, h2.1, hle, h1.2, hlo, hhi, htol⟩

end Sys2Proof.Laws
end

