-- ==== Sys2Proof/Laws/Ramp.lean ====
section
/-!
SUPPORT. The loop of the ramp, one lemma a way one pass can go (42_chip_and_ramp.md R163).
-/
namespace Sys2Proof.Laws

open Sys2Proof.Machine

variable {target tol cur : Rat} {room : Nat} {long : Bool} {steps : List RampStep} {s : State}

/-- No step is left of CMD_CAP. -/
theorem rampLoop_full : rampLoop target tol 0 cur long steps s = .raised .capacityExceeded (some cur) s := rfl

/-- The next step frequency has no candidate. -/
theorem rampLoop_gap (h : search (min (cur + 25 / 4) target) tol = none) :
    rampLoop target tol (room + 1) cur long steps s =
      .raised .noDividerFound (some (min (cur + 25 / 4) target)) s := by
  simp [rampLoop, Config.rampStep, h]

/-- The next step is the last. -/
theorem rampLoop_last {d : Dividers} (hle : target ≤ cur + 25 / 4) (h : search target tol = some d) :
    rampLoop target tol (room + 1) cur long steps s =
      .done (.rampSteps (steps ++
          [⟨pack d, if (if 380 < target then !long else long) then 2300 else 400⟩])) (setParam s 0 (pack d)) := by
  simp [rampLoop, Config.rampStep, Config.rampThreshold, Config.delayLong, Config.delayShort, Config.hashPll,
    min_eq_right hle, h]

/-- The next step is not the last. -/
theorem rampLoop_more {d : Dividers} (hlt : cur + 25 / 4 < target) (h : search (cur + 25 / 4) tol = some d) :
    rampLoop target tol (room + 1) cur long steps s =
      rampLoop target tol room (cur + 25 / 4) (if 380 < cur + 25 / 4 then !long else long)
        (steps ++ [⟨pack d, if (if 380 < cur + 25 / 4 then !long else long) then 2300 else 400⟩])
        (setParam s 0 (pack d)) := by
  have hne : cur + 25 / 4 ≠ target := ne_of_lt hlt
  rw [rampLoop]
  simp [Config.rampStep, Config.rampThreshold, Config.delayLong, Config.delayShort, Config.hashPll,
    min_eq_left hlt.le, h, hne]

end Sys2Proof.Laws
end

