-- ==== Sys2Proof/Laws/Exec.lean ====
section
/-!
SUPPORT. What every instruction does, said once: it is one transaction of its own pseudocode, so it ends in one of
three ways (60_exceptions.md R200, R202).
-/
namespace Sys2Proof.Laws

open Sys2Proof.Machine

/-- The pseudocode of an instruction. -/
def opOf : Instr → State → OpEnd
  | .pllFreq p t => pllFreqOp p t
  | .pllParam p => pllParamOp p
  | .pllSetfreq p t f tol => pllSetfreqOp p t f tol
  | .pllLock p => pllLockOp p
  | .pllUnlock p => pllUnlockOp p
  | .pllEnable p => pllEnableOp p
  | .pllDisable p => pllDisableOp p
  | .pllSetoutdiv p t v => pllSetoutdivOp p t v
  | .pllSetrefdiv p v => pllSetrefdivOp p v
  | .pllSetfbdiv p v => pllSetfbdivOp p v
  | .pllSetpost1 p v => pllSetpost1Op p v
  | .pllSetpost2 p v => pllSetpost2Op p v
  | .nonceCoreid n => nonceCoreidOp n
  | .nonceScid n => nonceScidOp n
  | .nonceScidv ver => nonceScidvOp ver
  | .nonceChipaddr n => nonceChipaddrOp n
  | .nonceRolldur => nonceRolldurOp
  | .chipVrenable m => chipVrenableOp m
  | .chipHashrate => chipHashrateOp
  | .chipRamp f => chipRampOp f

/-- Every instruction is the transaction of its pseudocode under its own record. -/
theorem exec_eq_transact (i : Instr) (s : State) : exec i s = transact (encode i) (opOf i) s := by
  cases i <;> rfl

/-- Everything an instruction can do: repeat the record of a faulted block, end with a result, or take a fault. -/
theorem exec_cases {i : Instr} {s u : State} (h : exec i s = .next u) :
    (∃ r, s.fault = some r ∧ u = respond s (.fault r)) ∨
    (s.fault = none ∧ ∃ r t, opOf i s = .done r t ∧ u = respond t (.result r)) ∨
    (s.fault = none ∧ ∃ c d t, opOf i s = .raised c d t ∧ u = takeFault t ⟨c, encode i, d⟩) :=
  transact_cases (exec_eq_transact i s ▸ h)

theorem exec_of_done {i : Instr} {s t : State} {r : Result} (h : s.fault = none) (hb : opOf i s = .done r t) :
    exec i s = .next (respond t (.result r)) := by
  rw [exec_eq_transact]
  exact transact_of_done h hb

theorem exec_of_raised {i : Instr} {s t : State} {c : FaultCode} {d : Option Rat} (h : s.fault = none)
    (hb : opOf i s = .raised c d t) : exec i s = .next (takeFault t ⟨c, encode i, d⟩) := by
  rw [exec_eq_transact]
  exact transact_of_raised h hb

theorem exec_of_fault {i : Instr} {s : State} {r : FaultRecord} (h : s.fault = some r) :
    exec i s = .next (respond s (.fault r)) := by
  rw [exec_eq_transact]
  exact transact_of_fault h

/-- What a step does with the host's oldest record. -/
theorem step_of_pending {s : State} {rec : OpRecord} {rest : List OpRecord} (h : s.pending = rec :: rest) :
    step s = match decode rec with
      | .op i => exec i { s with pending := rest }
      | .illegalOpcode => illegalOperation rec { s with pending := rest }
      | .malformed => .refused .malformedRecord := by
  cases hd : decode rec <;> simp [step, fetch, h, hd]

end Sys2Proof.Laws
end

