-- ==== Sys2Proof/Laws/Pack.lean ====
section
/-!
SUPPORT. PACK of a search result: the word is the sum of its fields, and each field of it is the divider it stands
for (40_pll.md R108, 30_encoding.md R71).
-/
namespace Sys2Proof.Laws

open Sys2Proof.Machine

/-- The upper half of PACK, over the values a search result can take. -/
theorem pack_high : ([true, false].all fun b => (List.range 240).all fun n =>
    ((1#32 <<< 31) ||| (1#32 <<< 30) ||| ((BitVec.ofBool b).setWidth 32 <<< 28) ||| (BitVec.ofInt 32 (n : Int) <<< 16)) ==
      BitVec.ofNat 32 (2 ^ 31 + 2 ^ 30 + (if b then 2 ^ 28 else 0) + n * 2 ^ 16)) = true := by decide +kernel

/-- The lower half of PACK, over the values a search result can take. -/
theorem pack_low : ((List.range 3).all fun ref => (List.range 8).all fun p1 => (List.range 8).all fun p2 =>
    ((BitVec.ofNat 32 ref <<< 8) ||| ((BitVec.ofNat 32 (p1 - 1) &&& 0xF#32) <<< 4) |||
      (BitVec.ofNat 32 (p2 - 1) &&& 0xF#32)) ==
      BitVec.ofNat 32 (ref * 2 ^ 8 + (p1 - 1) * 2 ^ 4 + (p2 - 1))) = true := by decide +kernel

/-- A word with an empty lower half, or-ed with one with an empty upper half, is their sum. -/
theorem or_halves (h l : Nat) (hh : h < 2 ^ 16) (hl : l < 2 ^ 16) :
    (BitVec.ofNat 32 (h * 2 ^ 16) ||| BitVec.ofNat 32 l) = BitVec.ofNat 32 (h * 2 ^ 16 + l) := by
  apply BitVec.eq_of_toNat_eq
  have e : h * 2 ^ 16 ||| l = h * 2 ^ 16 + l := by rw [Nat.mul_comm, Nat.two_pow_add_eq_or_of_lt hl]
  simp only [BitVec.toNat_or, BitVec.toNat_ofNat]
  rw [Nat.mod_eq_of_lt (by omega), Nat.mod_eq_of_lt (by omega), e, Nat.mod_eq_of_lt (by omega)]

/-- PACK is the sum of its fields, for dividers in the ranges of the search (R108). -/
theorem pack_eq_wordOf {d : Dividers} (hr : d.ref ≤ 2) (h1 : d.p1 ≤ 7) (h2 : d.p2 ≤ 7) (hlo : 0 ≤ d.fb)
    (hhi : d.fb ≤ 0xEF) : pack d = wordOf d := by
  obtain ⟨ref, p1, p2, fb⟩ := d
  simp only at *
  obtain ⟨n, rfl⟩ : ∃ n : Nat, fb = n := ⟨fb.toNat, by omega⟩
  have hi := pack_high
  simp only [List.all_eq_true, List.mem_range, beq_iff_eq] at hi
  have hi := hi (vcoHigh n ref) (by cases vcoHigh n ref <;> simp) n (by omega)
  have lo := pack_low
  simp only [List.all_eq_true, List.mem_range, beq_iff_eq] at lo
  have lo := lo ref (by omega) p1 (by omega) p2 (by omega)
  have hv : vcoHigh n ref = decide ((2400 : Rat) ≤ (n : Int) * 25 / ref) := rfl
  unfold pack wordOf
  simp only
  rw [BitVec.or_assoc, BitVec.or_assoc, ← BitVec.or_assoc (BitVec.ofNat 32 ref <<< 8), hi, lo]
  have e : 2 ^ 31 + 2 ^ 30 + (if vcoHigh n ref = true then 2 ^ 28 else 0) + n * 2 ^ 16 =
      (2 ^ 15 + 2 ^ 14 + (if vcoHigh n ref = true then 2 ^ 12 else 0) + n) * 2 ^ 16 := by split <;> omega
  rw [e, or_halves _ _ (by split <;> omega) (by omega), ← e, hv]
  simp only [decide_eq_true_eq, Int.toNat_natCast]
  congr 1
  omega

/-- The word a search packs, as the sum of its fields (R108). -/
theorem pack_of_search {target tol : Rat} {d : Dividers} (h : search target tol = some d) : pack d = wordOf d := by
  obtain ⟨hr, h1, h2, h3, h4, h5, -⟩ := search_bounds h
  exact pack_eq_wordOf (by omega) (by omega) (by omega) (by omega) h5

/-- The fields of the word a search packs (R71, R108). -/
theorem fields_of_search {target tol : Rat} {d : Dividers} (h : search target tol = some d) :
    bitsOf (pack d) 31 24 = (if (2400 : Rat) ≤ d.fb * 25 / d.ref then 0xD0 else 0xC0) ∧
    bitsOf (pack d) 23 16 = d.fb.toNat ∧ bitsOf (pack d) 15 8 = d.ref ∧ bitsOf (pack d) 7 4 = d.p1 - 1 ∧
    bitsOf (pack d) 3 0 = d.p2 - 1 := by
  obtain ⟨hr, h1, h2, h3, h4, h5, -⟩ := search_bounds h
  have hfb : d.fb.toNat ≤ 0xEF := by omega
  rw [pack_of_search h]
  unfold bitsOf wordOf
  simp only [BitVec.toNat_ofNat]
  split <;> refine ⟨?_, ?_, ?_, ?_, ?_⟩ <;> omega

/-- The frequency of the word a search packs is what the search achieved (R101, R104). -/
theorem preFreqOf_of_search {target tol : Rat} {d : Dividers} (h : search target tol = some d) :
    preFreqOf (pack d) = achieved d := by
  obtain ⟨-, hfb, href, hp1, hp2⟩ := fields_of_search h
  obtain ⟨-, h1, h2, h3, h4, h5, -⟩ := search_bounds h
  have e1 : ((d.p1 - 1 : Nat) : Rat) + 1 = d.p1 := by exact_mod_cast Nat.sub_add_cancel (by omega : 1 ≤ d.p1)
  have e2 : ((d.p2 - 1 : Nat) : Rat) + 1 = d.p2 := by exact_mod_cast Nat.sub_add_cancel h1
  have e3 : ((d.fb.toNat : Nat) : Rat) = d.fb := by exact_mod_cast Int.toNat_of_nonneg (by omega : 0 ≤ d.fb)
  rw [preFreqOf, hfb, href, hp1, hp2, e1, e2, e3]
  simp [achieved, Config.fIn]

end Sys2Proof.Laws
end

