-- ==== Sys2Proof/Laws/Effect.lean ====
section
/-!
SUPPORT. Everything the pseudocode of an instruction can write, said once (10_state.md R39): each frame and each
invariant is a case analysis of `Effect`.
-/
namespace Sys2Proof.Laws

open Sys2Proof.Machine

/-- The state at the end of a pseudocode, before the response or the fault record is written. -/
def endState : OpEnd → State
  | .done _ t => t
  | .raised _ _ t => t

/-- The states the pseudocode of `i` can leave, from `s`. -/
inductive Effect (i : Instr) (s : State) : State → Prop
  /-- nothing written: a read-only operation, or a check that failed -/
  | nothing : Effect i s s
  /-- PLL.LOCK, PLL.UNLOCK -/
  | locked {p : U8} {q : Pll} (b : Bool) (hi : i = .pllLock p ∨ i = .pllUnlock p)
      (hq : s.plls[p.toNat]? = some q) : Effect i s (setParam s p.toNat (setField q.param 31 (BitVec.ofBool b)))
  /-- PLL.ENABLE, PLL.DISABLE -/
  | enabled {p : U8} {q : Pll} (b : Bool) (hi : i = .pllEnable p ∨ i = .pllDisable p)
      (hq : s.plls[p.toNat]? = some q) : Effect i s (setParam s p.toNat (setField q.param 30 (BitVec.ofBool b)))
  /-- PLL.SETREFDIV -/
  | ref {p : U8} {q : Pll} {v : U32} (hi : i = .pllSetrefdiv p v) (hq : s.plls[p.toNat]? = some q)
      (hv : 1 ≤ v.toNat ∧ v.toNat ≤ 2) : Effect i s (setParam s p.toNat (setField q.param 8 (byteOf v)))
  /-- PLL.SETFBDIV -/
  | fb {p : U8} {q : Pll} {v : U32} (hi : i = .pllSetfbdiv p v) (hq : s.plls[p.toNat]? = some q)
      (hv : v.toNat ≤ 255) : Effect i s (setParam s p.toNat (setField q.param 16 (byteOf v)))
  /-- PLL.SETPOST1 -/
  | post1 {p : U8} {q : Pll} {v : U32} (hi : i = .pllSetpost1 p v) (hq : s.plls[p.toNat]? = some q)
      (hv : 1 ≤ v.toNat ∧ v.toNat ≤ 7) : Effect i s (setParam s p.toNat (setField q.param 4 (postNibbleOf v)))
  /-- PLL.SETPOST2 -/
  | post2 {p : U8} {q : Pll} {v : U32} (hi : i = .pllSetpost2 p v) (hq : s.plls[p.toNat]? = some q)
      (hv : 1 ≤ v.toNat ∧ v.toNat ≤ 7) : Effect i s (setParam s p.toNat (setField q.param 0 (postNibbleOf v)))
  /-- PLL.SETOUTDIV -/
  | outDiv {p t : U8} {q : Pll} {v : U32} (hi : i = .pllSetoutdiv p t v) (hq : s.plls[p.toNat]? = some q)
      (ht : t.toNat < 4) (hv : v.toNat ≤ 15) : Effect i s (setOutDiv s p.toNat ⟨t.toNat, ht⟩ (outDivOf v))
  /-- PLL.SETFREQ -/
  | searched {p t : U8} {q : Pll} {f tol : Rat} {d : Dividers} (hi : i = .pllSetfreq p t f tol)
      (hq : s.plls[p.toNat]? = some q) (ht : t.toNat < 4) (hd : search f tol = some d) :
      Effect i s (setParam s p.toNat (pack d))
  /-- CHIP.RAMP: the last word written -/
  | ramped {f g : Rat} {d : Dividers} (hi : i = .chipRamp f) (hd : search g s.cfg.rampTol = some d) :
      Effect i s (setParam s 0 (pack d))
  /-- CHIP.VRENABLE -/
  | rolling {m : U32} (hi : i = .chipVrenable m) (hs : s.cfg.supportsVr = true) (hm : m ≠ 0) :
      Effect i s (setVersionRolling s m)

/-- Writing a PLL's word twice is writing it once. -/
theorem setParam_setParam (s : State) (p : Nat) (w w' : U32) : setParam (setParam s p w) p w' = setParam s p w' := by
  refine state_ext rfl ?_ rfl rfl rfl rfl rfl
  apply List.ext_getElem?
  intro j
  by_cases h : p = j <;> simp [h, Function.comp_def]

/-- A ramp's loop leaves the state as it was or the word of its last search. -/
theorem rampLoop_effect (target tol : Rat) (room : Nat) (cur : Rat) (long : Bool) (steps : List RampStep) (s : State) :
    endState (rampLoop target tol room cur long steps s) = s ∨
    ∃ g d, search g tol = some d ∧ endState (rampLoop target tol room cur long steps s) = setParam s 0 (pack d) := by
  induction room generalizing cur long steps s with
  | zero => exact .inl rfl
  | succ room ih =>
    rw [rampLoop]
    cases hd : search (min (cur + Config.rampStep) target) tol with
    | none => exact .inl (by simp [endState])
    | some d =>
      simp only
      split
      · exact .inr ⟨_, d, hd, rfl⟩
      · rcases ih (min (cur + Config.rampStep) target) _ _ (setParam s Config.hashPll (pack d)) with h | ⟨g, d', h', h⟩
        · exact .inr ⟨_, d, hd, h⟩
        · exact .inr ⟨g, d', h', h.trans (setParam_setParam s 0 _ _)⟩

/-- Everything the pseudocode of an instruction can write (R39). -/
theorem opOf_effect (i : Instr) (s : State) : Effect i s (endState (opOf i s)) := by
  cases i with
  | pllFreq p t =>
    simp only [opOf, pllFreqOp, withPll, withTap]
    repeat' split
    all_goals exact .nothing
  | pllParam p =>
    simp only [opOf, pllParamOp, withPll]
    split <;> exact .nothing
  | pllSetfreq p t f tol =>
    simp only [opOf, pllSetfreqOp, withPll, withTap]
    split
    · exact .nothing
    · split
      · split
        · exact .nothing
        · exact .searched rfl ‹_› ‹_› ‹_›
      · exact .nothing
  | pllLock p =>
    simp only [opOf, pllLockOp, withPll]
    split
    · exact .nothing
    · exact .locked true (.inl rfl) ‹_›
  | pllUnlock p =>
    simp only [opOf, pllUnlockOp, withPll]
    split
    · exact .nothing
    · exact .locked false (.inr rfl) ‹_›
  | pllEnable p =>
    simp only [opOf, pllEnableOp, withPll]
    split
    · exact .nothing
    · exact .enabled true (.inl rfl) ‹_›
  | pllDisable p =>
    simp only [opOf, pllDisableOp, withPll]
    split
    · exact .nothing
    · exact .enabled false (.inr rfl) ‹_›
  | pllSetoutdiv p t v =>
    simp only [opOf, pllSetoutdivOp, withPll, withTap, withValue]
    split
    · exact .nothing
    · split
      · split
        · exact .outDiv rfl ‹_› _ (by omega)
        · exact .nothing
      · exact .nothing
  | pllSetrefdiv p v =>
    simp only [opOf, pllSetrefdivOp, withPll, withValue]
    split
    · exact .nothing
    · split
      · exact .ref rfl ‹_› ‹_›
      · exact .nothing
  | pllSetfbdiv p v =>
    simp only [opOf, pllSetfbdivOp, withPll, withValue]
    split
    · exact .nothing
    · split
      · exact .fb rfl ‹_› (by omega)
      · exact .nothing
  | pllSetpost1 p v =>
    simp only [opOf, pllSetpost1Op, withPll, withValue]
    split
    · exact .nothing
    · split
      · exact .post1 rfl ‹_› ‹_›
      · exact .nothing
  | pllSetpost2 p v =>
    simp only [opOf, pllSetpost2Op, withPll, withValue]
    split
    · exact .nothing
    · split
      · exact .post2 rfl ‹_› ‹_›
      · exact .nothing
  | nonceCoreid n => exact .nothing
  | nonceScid n =>
    simp only [opOf, nonceScidOp]
    split <;> exact .nothing
  | nonceScidv ver =>
    simp only [opOf, nonceScidvOp]
    repeat' split
    all_goals exact .nothing
  | nonceChipaddr n =>
    simp only [opOf, nonceChipaddrOp]
    split <;> exact .nothing
  | nonceRolldur =>
    simp only [opOf, nonceRolldurOp, withHashFrequency]
    repeat' split
    all_goals exact .nothing
  | chipVrenable m =>
    simp only [opOf, chipVrenableOp]
    split
    · exact .nothing
    · split
      · exact .nothing
      · exact .rolling rfl (by simpa using ‹¬(!s.cfg.supportsVr) = true›) ‹_›
  | chipHashrate =>
    simp only [opOf, chipHashrateOp, withHashFrequency]
    split <;> exact .nothing
  | chipRamp f =>
    simp only [opOf, chipRampOp, withHashFrequency]
    split
    · exact .nothing
    · rcases rampLoop_effect f s.cfg.rampTol s.cfg.cmdCap _ false [] s with h | ⟨g, d, hd, h⟩
      · rw [h]
        exact .nothing
      · rw [h]
        exact .ramped rfl hd

/-- Everything an instruction can do to the state: the response only, or its effect with the response, or its effect
with a fault taken. -/
theorem exec_effect {i : Instr} {s u : State} (h : exec i s = .next u) :
    (∃ r, s.fault = some r ∧ u = respond s (.fault r)) ∨
    (s.fault = none ∧ ∃ t, Effect i s t ∧ ((∃ r, u = respond t (.result r)) ∨
      ∃ c d, u = takeFault t ⟨c, encode i, d⟩)) := by
  have he := opOf_effect i s
  rcases exec_cases h with h | ⟨hf, r, t, ho, rfl⟩ | ⟨hf, c, d, t, ho, rfl⟩
  · exact .inl h
  · rw [ho] at he
    exact .inr ⟨hf, t, he, .inl ⟨r, rfl⟩⟩
  · rw [ho] at he
    exact .inr ⟨hf, t, he, .inr ⟨c, d, rfl⟩⟩

end Sys2Proof.Laws
end

