-- ==== Sys2Proof/Laws/PerInstr.lean ====
section
/-!
SUPPORT. Statements made of every instruction as syntax, one lemma a constructor (LAWS.json). RecordShape: the record
of a well-formed instruction has a legal opcode and operands of the shape and types of its format (30_encoding.md R67,
R68, R70).
-/
namespace Sys2Proof.Laws.RecordShape

/-- The record of a well-formed instruction has the shape of its opcode's format. -/
def Statement (i : Instr) : Prop :=
  i.wellFormed = true → ∃ fmt, formatOf (encode i).opcode = some fmt ∧ conforms fmt.kinds (encode i).operands = true

theorem pllFreq (p : U8) (t : U8) : Statement (.pllFreq p t) :=
  fun _ => ⟨.pt, show formatOf 0x10 = some .pt by decide, rfl⟩

theorem pllParam (p : U8) : Statement (.pllParam p) :=
  fun _ => ⟨.p, show formatOf 0x11 = some .p by decide, rfl⟩

theorem pllSetfreq (p : U8) (t : U8) (f : Rat) (tol : Rat) : Statement (.pllSetfreq p t f tol) :=
  fun h => ⟨.ptf, show formatOf 0x12 = some .ptf by decide,
    by simpa [Instr.wellFormed, encode, Format.kinds, conforms, OperandKind.admits] using h⟩

theorem pllLock (p : U8) : Statement (.pllLock p) :=
  fun _ => ⟨.p, show formatOf 0x13 = some .p by decide, rfl⟩

theorem pllUnlock (p : U8) : Statement (.pllUnlock p) :=
  fun _ => ⟨.p, show formatOf 0x14 = some .p by decide, rfl⟩

theorem pllEnable (p : U8) : Statement (.pllEnable p) :=
  fun _ => ⟨.p, show formatOf 0x15 = some .p by decide, rfl⟩

theorem pllDisable (p : U8) : Statement (.pllDisable p) :=
  fun _ => ⟨.p, show formatOf 0x16 = some .p by decide, rfl⟩

theorem pllSetoutdiv (p : U8) (t : U8) (v : U32) : Statement (.pllSetoutdiv p t v) :=
  fun _ => ⟨.ptv, show formatOf 0x17 = some .ptv by decide, rfl⟩

theorem pllSetrefdiv (p : U8) (v : U32) : Statement (.pllSetrefdiv p v) :=
  fun _ => ⟨.pv, show formatOf 0x18 = some .pv by decide, rfl⟩

theorem pllSetfbdiv (p : U8) (v : U32) : Statement (.pllSetfbdiv p v) :=
  fun _ => ⟨.pv, show formatOf 0x19 = some .pv by decide, rfl⟩

theorem pllSetpost1 (p : U8) (v : U32) : Statement (.pllSetpost1 p v) :=
  fun _ => ⟨.pv, show formatOf 0x1A = some .pv by decide, rfl⟩

theorem pllSetpost2 (p : U8) (v : U32) : Statement (.pllSetpost2 p v) :=
  fun _ => ⟨.pv, show formatOf 0x1B = some .pv by decide, rfl⟩

theorem nonceCoreid (n : U32) : Statement (.nonceCoreid n) :=
  fun _ => ⟨.n, show formatOf 0x20 = some .n by decide, rfl⟩

theorem nonceScid (n : U32) : Statement (.nonceScid n) :=
  fun _ => ⟨.n, show formatOf 0x21 = some .n by decide, rfl⟩

theorem nonceScidv (ver : U32) : Statement (.nonceScidv ver) :=
  fun _ => ⟨.ver, show formatOf 0x22 = some .ver by decide, rfl⟩

theorem nonceChipaddr (n : U32) : Statement (.nonceChipaddr n) :=
  fun _ => ⟨.n, show formatOf 0x23 = some .n by decide, rfl⟩

theorem nonceRolldur : Statement .nonceRolldur :=
  fun _ => ⟨.z, show formatOf 0x24 = some .z by decide, rfl⟩

theorem chipVrenable (m : U32) : Statement (.chipVrenable m) :=
  fun _ => ⟨.m, show formatOf 0x30 = some .m by decide, rfl⟩

theorem chipHashrate : Statement .chipHashrate :=
  fun _ => ⟨.z, show formatOf 0x31 = some .z by decide, rfl⟩

theorem chipRamp (f : Rat) : Statement (.chipRamp f) :=
  fun h => ⟨.f, show formatOf 0x32 = some .f by decide,
    by simpa [Instr.wellFormed, encode, Format.kinds, conforms, OperandKind.admits] using h⟩

end Sys2Proof.Laws.RecordShape
end

