-- ==== Sys2Proof/Tests/Slice0.lean ====
section
/-!
SUPPORT. Tests of the model on vectors of the spec, and for each obligation with hypotheses a state and operands that
meet them. Every expected value is the spec's: the vector (95_test_vectors.md) or rule stands in the docstring.
-/
open Sys2Proof Sys2Proof.Machine

namespace Sys2Proof.Tests

set_option Elab.async false

/-! ## Helpers -/

/-- The next state of an outcome, if it is one. -/
def nextOf (o : Host.Outcome State Fault Refusal) : Option State :=
  match o with
  | .next t => some t
  | .fault _ => none
  | .refused _ => none

theorem next_of_nextOf {o : Host.Outcome State Fault Refusal} {t : State} (h : nextOf o = some t) : o = .next t := by
  cases o <;> simp_all [nextOf]

/-- The response an outcome leaves. -/
def responseOf (o : Host.Outcome State Fault Refusal) : Option Response := (nextOf o).bind (·.response)

/-- The word of PLL k an outcome leaves. -/
def wordAfter (o : Host.Outcome State Fault Refusal) (k : Nat) : Option U32 :=
  ((nextOf o).bind (·.plls[k]?)).map (·.param)

/-- The refusal of an outcome, if it is one. -/
def refusalOf (o : Host.Outcome State Fault Refusal) : Option Refusal :=
  match o with
  | .next _ => none
  | .fault _ => none
  | .refused r => some r

/-- The test configuration at reset with the word `w` and the output dividers `od` in PLL 0 (95 section 4). -/
def withWord (w : U32) (od : Vector U8 4) : State :=
  { State.reset with plls := [⟨w, od⟩, ⟨0x40700111, #v[0, 0, 0, 0]⟩] }

/-- The state of most vectors of 95 section 4: 75 MHz on PLL 0. -/
def at75 : State := withWord 0xC0A80263 #v[0, 0, 0, 0]

/-- The test configuration with other nonce geometry. -/
def geometry (c s : Nat) : Config := { Config.vectors with coreIdBits := c, smallCoreIdBits := s }

/-- A new instance of that geometry, with version rolling on and the mask `m`. -/
def rolling (c s : Nat) (m : U32) : State := { State.resetOf (geometry c s) with vrEn := true, vrMask := m }

/-- The reset state with another ramp capacity. -/
def withCap (n : Nat) : State := State.resetOf { Config.vectors with cmdCap := n }

/-- A block that has faulted on `pll.param 2` (V-FLT-1). -/
def faulted : State :=
  let r : FaultRecord := ⟨.operandRange, ⟨0x11, [.u8 2]⟩, none⟩
  { State.reset with fault := some r, response := some (.fault r) }

/-! ## Well-formedness: each check refuses an ill-formed term -/

theorem test_negative_setfreq_is_ill_formed : (Instr.pllSetfreq 0 0 (-1) 1).wellFormed = false := by decide +kernel
theorem test_negative_tolerance_is_well_formed : (Instr.pllSetfreq 0 0 0 (-1)).wellFormed = true := by decide +kernel
theorem test_negative_ramp_is_ill_formed : (Instr.chipRamp (-1 / 2)).wellFormed = false := by decide +kernel
theorem test_out_of_range_operands_are_well_formed :
    (Instr.pllSetoutdiv 255 255 0xFFFFFFFF).wellFormed = true := by decide +kernel
theorem test_vectors_configuration_is_admitted : Config.vectors.wellFormed = true := by decide +kernel
theorem test_nonce_fields_must_fit :
    (geometry 16 8).nonceFits = true ∧ (geometry 16 9).nonceFits = false ∧ (geometry 0 3).nonceFits = false := by
  decide +kernel
theorem test_zero_reference_default_is_illegal :
    { Config.vectors with pllDefaults := [⟨0xC0A80065, #v[0, 0, 0, 0]⟩] }.defaultsLegal = false := by decide +kernel
theorem test_post_nibble_seven_default_is_illegal :
    { Config.vectors with pllDefaults := [⟨0xC0A80275, #v[0, 0, 0, 0]⟩] }.defaultsLegal = false ∧
    { Config.vectors with pllDefaults := [⟨0xC0A80267, #v[0, 0, 0, 0]⟩] }.defaultsLegal = false := by decide +kernel
theorem test_out_divider_sixteen_default_is_illegal :
    { Config.vectors with pllDefaults := [⟨0xC0A80265, #v[0, 0, 0, 16]⟩] }.defaultsLegal = false := by decide +kernel
theorem test_hash_default_must_be_50 :
    { Config.vectors with pllDefaults := [⟨0xC0A80263, #v[0, 0, 0, 0]⟩] }.hashDefault = false ∧
    { Config.vectors with pllDefaults := [] }.hashDefault = false := by decide +kernel
theorem test_uart_default_must_be_enabled :
    { Config.vectors with uartPll := 2 }.uartDefault = false ∧
    { Config.vectors with pllDefaults := [⟨0xC0A80265, #v[0, 0, 0, 0]⟩, ⟨0x80700111, #v[0, 0, 0, 0]⟩] }.uartDefault =
      false := by decide +kernel
theorem test_ramp_parameters_are_positive :
    { Config.vectors with rampTol := 0 }.rampParameters = false ∧ (withCap 0).cfg.rampParameters = false := by
  decide +kernel

/-! ## Decoding: every opcode of R68, with the operands of its format in R67 -/

theorem test_decode_pll_readers_and_search :
    decode ⟨0x10, [.u8 1, .u8 2]⟩ = .op (.pllFreq 1 2) ∧ decode ⟨0x11, [.u8 3]⟩ = .op (.pllParam 3) ∧
    decode ⟨0x12, [.u8 1, .u8 2, .q 75, .q (1 / 1000)]⟩ = .op (.pllSetfreq 1 2 75 (1 / 1000)) := by decide +kernel
theorem test_decode_flag_setters :
    decode ⟨0x13, [.u8 1]⟩ = .op (.pllLock 1) ∧ decode ⟨0x14, [.u8 1]⟩ = .op (.pllUnlock 1) ∧
    decode ⟨0x15, [.u8 1]⟩ = .op (.pllEnable 1) ∧ decode ⟨0x16, [.u8 1]⟩ = .op (.pllDisable 1) := by decide +kernel
theorem test_decode_field_setters :
    decode ⟨0x17, [.u8 1, .u8 2, .u32 6]⟩ = .op (.pllSetoutdiv 1 2 6) ∧
    decode ⟨0x18, [.u8 0, .u32 1]⟩ = .op (.pllSetrefdiv 0 1) ∧
    decode ⟨0x19, [.u8 1, .u32 112]⟩ = .op (.pllSetfbdiv 1 112) ∧
    decode ⟨0x1A, [.u8 0, .u32 4]⟩ = .op (.pllSetpost1 0 4) ∧
    decode ⟨0x1B, [.u8 0, .u32 7]⟩ = .op (.pllSetpost2 0 7) := by decide +kernel
theorem test_decode_nonce :
    decode ⟨0x20, [.u32 0x5AA78000]⟩ = .op (.nonceCoreid 0x5AA78000) ∧
    decode ⟨0x21, [.u32 0x5AA78000]⟩ = .op (.nonceScid 0x5AA78000) ∧
    decode ⟨0x22, [.u32 0x2000A000]⟩ = .op (.nonceScidv 0x2000A000) ∧
    decode ⟨0x23, [.u32 0x5AA78000]⟩ = .op (.nonceChipaddr 0x5AA78000) ∧
    decode ⟨0x24, []⟩ = .op .nonceRolldur := by decide +kernel
theorem test_decode_chip :
    decode ⟨0x30, [.u32 0x1FFFE000]⟩ = .op (.chipVrenable 0x1FFFE000) ∧ decode ⟨0x31, []⟩ = .op .chipHashrate ∧
    decode ⟨0x32, [.q 75]⟩ = .op (.chipRamp 75) := by decide +kernel
/-- R69: the ends of the illegal ranges. -/
theorem test_decode_illegal_opcodes :
    ∀ code ∈ [0x00#8, 0x0F#8, 0x1C#8, 0x1F#8, 0x25#8, 0x2F#8, 0x33#8, 0xFF#8],
      decode ⟨code, []⟩ = .illegalOpcode := by decide +kernel
/-- R70: a missing field, an extra field, a value of the wrong type; a negative frequency (log entry 7). -/
theorem test_decode_malformed :
    decode ⟨0x10, [.u8 1]⟩ = .malformed ∧ decode ⟨0x31, [.u8 1]⟩ = .malformed ∧
    decode ⟨0x11, [.u32 1]⟩ = .malformed ∧ decode ⟨0x32, [.q (-1)]⟩ = .malformed ∧
    decode ⟨0x12, [.u8 0, .u8 0, .q (-1), .q 1]⟩ = .malformed := by decide +kernel
/-- The opcode table gives a row 8 bits; operands are zero (log entry 9). -/
theorem test_table_words :
    decodeTableWord 8 0x17 = some (.pllSetoutdiv 0 0 0) ∧ decodeTableWord 8 0x12 = some (.pllSetfreq 0 0 0 0) ∧
    decodeTableWord 8 0x24 = some .nonceRolldur ∧ decodeTableWord 8 0x33 = none := by decide +kernel
/-- A table word presented is what the next step runs: `pll.param 0` answers the reset word (95 section 1). -/
theorem test_table_word_runs : responseOf (step (State.reset.withFetchWord 8 0x11)) =
    some (.result (.param 0xC0A80265)) := by decide +kernel

/-! ## PLL operations -/

/-- V-SET-3. -/
theorem test_freq_of_the_last_tap :
    responseOf (exec (.pllFreq 0 3) (withWord 0xC0A80263 #v[0, 0, 0, 15])) = some (.result (.frequency (75 / 16))) := by
  decide +kernel
/-- V-FLT-2. -/
theorem test_freq_of_tap_four : responseOf (exec (.pllFreq 0 4) State.reset) =
    some (.fault ⟨.operandRange, ⟨0x10, [.u8 0, .u8 4]⟩, none⟩) := by decide +kernel
/-- V-SET-4. -/
theorem test_param : responseOf (exec (.pllParam 0) at75) = some (.result (.param 0xC0A80263)) := by decide +kernel
/-- V-FLT-1. -/
theorem test_param_of_pll_two : nextOf (exec (.pllParam 2) State.reset) = some faulted := by decide +kernel
/-- V-PLL-2, V-PLL-8, V-PLL-10, V-PLL-21, V-PLL-23, V-PLL-24, V-PLL-14: words of the search. -/
theorem test_search_words :
    [(75, 1 / 1000), (600, 1 / 1000), (1500, 1 / 1000), (2000 / 49 - 1 / 2000, 1 / 1000), (5975, 1 / 1000),
      (100, 1 / 1000), (77, 1 / 2)].map (fun p : Rat × Rat => wordAfter (exec (.pllSetfreq 0 0 p.1 p.2) State.reset) 0) =
    [some 0xC0A80263, some 0xD0C00230, some 0xD0B40120, some 0xC0A00266, some 0xD0EF0100, some 0xC0A00243,
      some 0xC0AC0263] := by decide +kernel
/-- V-PLL-12, V-PLL-16, V-PLL-17, V-PLL-22: NoDividerFound, and V-FLT-10: the word stays. -/
theorem test_search_failures :
    [(77, 1 / 1000), (75, 0), (75, -1), (2000 / 49 - 1 / 1000, 1 / 1000)].map
      (fun p : Rat × Rat => nextOf (exec (.pllSetfreq 0 0 p.1 p.2) State.reset)) =
    [(77, 1 / 1000), (75, 0), (75, -1), (2000 / 49 - 1 / 1000, 1 / 1000)].map fun p : Rat × Rat =>
      some { State.reset with
        fault := some ⟨.noDividerFound, ⟨0x12, [.u8 0, .u8 0, .q p.1, .q p.2]⟩, none⟩
        response := some (.fault ⟨.noDividerFound, ⟨0x12, [.u8 0, .u8 0, .q p.1, .q p.2]⟩, none⟩) } := by
  decide +kernel
/-- V-SET-5, V-SET-6, V-SET-7, V-SET-8, V-SET-22. -/
theorem test_flag_setters :
    wordAfter (exec (.pllUnlock 0) at75) 0 = some 0x40A80263 ∧
    wordAfter (exec (.pllLock 0) (withWord 0x40A80263 #v[0, 0, 0, 0])) 0 = some 0xC0A80263 ∧
    wordAfter (exec (.pllDisable 0) at75) 0 = some 0x80A80263 ∧
    wordAfter (exec (.pllEnable 0) (withWord 0x80A80263 #v[0, 0, 0, 0])) 0 = some 0xC0A80263 ∧
    wordAfter (exec (.pllLock 1) at75) 1 = some 0xC0700111 ∧ wordAfter (exec (.pllLock 1) at75) 0 = some 0xC0A80263 := by
  decide +kernel
/-- V-SET-10, V-SET-12, V-SET-14, V-SET-15, V-SET-16, V-SET-21. -/
theorem test_field_setters :
    wordAfter (exec (.pllSetrefdiv 0 1) at75) 0 = some 0xC0A80163 ∧
    wordAfter (exec (.pllSetfbdiv 0 200) at75) 0 = some 0xC0C80263 ∧
    wordAfter (exec (.pllSetfbdiv 0 255) at75) 0 = some 0xC0FF0263 ∧
    wordAfter (exec (.pllSetpost1 0 1) at75) 0 = some 0xC0A80203 ∧
    wordAfter (exec (.pllSetpost2 0 7) at75) 0 = some 0xC0A80266 ∧
    wordAfter (exec (.pllSetfbdiv 0 168) (withWord 0xE5C80263 #v[0, 0, 0, 0])) 0 = some 0xE5A80263 := by decide +kernel
/-- V-SET-17: the divider of tap 1 only. -/
theorem test_setoutdiv : nextOf (exec (.pllSetoutdiv 0 1 2) at75) =
    some { withWord 0xC0A80263 #v[0, 2, 0, 0] with response := some (.result .ok) } := by decide +kernel
/-- V-FLT-4 to V-FLT-9: setter values out of range. -/
theorem test_setter_ranges :
    [Instr.pllSetoutdiv 0 0 16, .pllSetrefdiv 0 0, .pllSetrefdiv 0 3, .pllSetfbdiv 0 256, .pllSetpost1 0 0,
      .pllSetpost2 0 8, .pllSetpost1 0 8, .pllSetpost2 0 0].all (fun i =>
        decide (responseOf (exec i State.reset) = some (.fault ⟨.operandRange, encode i, none⟩))) = true := by
  decide +kernel
/-- V-SET-20: SETFREQ clears the reserved bits. -/
theorem test_setfreq_clears_reserved_bits :
    wordAfter (exec (.pllSetfreq 0 0 75 (1 / 1000)) (withWord 0xE5C80263 #v[0, 0, 0, 0])) 0 = some 0xC0A80263 := by
  decide +kernel

/-! ## Nonce decoder -/

/-- V-DEC-1, V-DEC-11. -/
theorem test_coreid :
    responseOf (exec (.nonceCoreid 0x5AA78000) State.reset) = some (.result (.coreId 0x5A)) ∧
    responseOf (exec (.nonceCoreid 0x12345678) (State.resetOf (geometry 24 0))) = some (.result (.coreId 0x123456)) := by
  decide +kernel
/-- V-DEC-1, V-DEC-10, V-DEC-12. -/
theorem test_scid :
    responseOf (exec (.nonceScid 0x5AA78000) State.reset) = some (.result (.smallCoreId 5)) ∧
    responseOf (exec (.nonceScid 0x5AA78000) (State.resetOf (geometry 1 0))) = some (.result (.smallCoreId 0)) ∧
    responseOf (exec (.nonceScid 0x12345678) (State.resetOf (geometry 16 8))) = some (.result (.smallCoreId 0x56)) := by
  decide +kernel
/-- V-DEC-13, V-DEC-16, V-DEC-19. -/
theorem test_scidv :
    responseOf (exec (.nonceScidv 0x2000A000) (rolling 8 3 0x1FFFE000)) = some (.result (.smallCoreId 5)) ∧
    responseOf (exec (.nonceScidv 0x80000000) (rolling 8 3 0x80000000)) = some (.result (.smallCoreId 1)) ∧
    responseOf (exec (.nonceScidv 0x7FFFFFFF) (rolling 8 3 0xF0000000)) = some (.result (.smallCoreId 7)) := by
  decide +kernel
/-- V-DEC-20, V-DEC-21. -/
theorem test_mode_faults :
    responseOf (exec (.nonceScidv 0x2000A000) State.reset) =
      some (.fault ⟨.modeMismatch, ⟨0x22, [.u32 0x2000A000]⟩, none⟩) ∧
    responseOf (exec (.nonceScid 0x5A3C0000) (rolling 8 3 0x1FFFE000)) =
      some (.fault ⟨.modeMismatch, ⟨0x21, [.u32 0x5A3C0000]⟩, none⟩) := by decide +kernel
/-- V-DEC-1, V-DEC-7, V-DEC-12. -/
theorem test_chipaddr :
    responseOf (exec (.nonceChipaddr 0x5AA78000) State.reset) = some (.result (.chipAddress 0x3C)) ∧
    responseOf (exec (.nonceChipaddr 0x5AA78000) (rolling 8 3 0x1FFFE000)) = some (.result (.chipAddress 0xA7)) ∧
    responseOf (exec (.nonceChipaddr 0x5AA78000) (State.resetOf (geometry 8 2))) = some (.result (.chipAddress 0x9E)) ∧
    responseOf (exec (.nonceChipaddr 0x12345678) (rolling 16 8 0x1FFFE000)) = some (.result (.chipAddress 0x56)) := by
  decide +kernel
/-- V-DEC-23, V-DEC-24, V-DEC-26, V-DEC-28. -/
theorem test_rolldur :
    responseOf (exec .nonceRolldur State.reset) = some (.result (.duration (64 / 390625))) ∧
    responseOf (exec .nonceRolldur (rolling 8 3 0x1FFFE000)) = some (.result (.duration (4194304 / 390625))) ∧
    responseOf (exec .nonceRolldur (rolling 8 2 0x1FFFE000)) = some (.result (.duration (8388608 / 390625))) ∧
    responseOf (exec .nonceRolldur (State.resetOf (geometry 24 0))) = some (.result (.duration (1 / 50000000))) := by
  decide +kernel
/-- V-DEC-30. -/
theorem test_rolldur_at_zero_frequency :
    responseOf (exec .nonceRolldur (withWord 0xC0000265 #v[0, 0, 0, 0])) =
      some (.fault ⟨.zeroHashFrequency, ⟨0x24, []⟩, none⟩) := by decide +kernel

/-! ## Chip operations -/

/-- V-CHIP-1. -/
theorem test_vrenable : nextOf (exec (.chipVrenable 0x1FFFE000) State.reset) =
    some { State.reset with vrEn := true, vrMask := 0x1FFFE000, response := some (.result .ok) } := by decide +kernel
/-- V-CHIP-3, V-CHIP-5. -/
theorem test_vrenable_faults :
    responseOf (exec (.chipVrenable 0) State.reset) = some (.fault ⟨.zeroVersionMask, ⟨0x30, [.u32 0]⟩, none⟩) ∧
    responseOf (exec (.chipVrenable 0) (State.resetOf { Config.vectors with supportsVr := false })) =
      some (.fault ⟨.versionRollingUnsupported, ⟨0x30, [.u32 0]⟩, none⟩) := by decide +kernel
/-- V-CHIP-8, V-CHIP-9, V-CHIP-10, V-CHIP-11. -/
theorem test_hashrate :
    responseOf (exec .chipHashrate (withWord 0xC0A00240 #v[0, 0, 0, 0])) = some (.result (.hashRate 400000000000)) ∧
    responseOf (exec .chipHashrate (withWord 0xC0A80265 #v[3, 0, 0, 0])) = some (.result (.hashRate 12500000000)) ∧
    responseOf (exec .chipHashrate (withWord 0xC0000265 #v[0, 0, 0, 0])) = some (.result (.hashRate 0)) ∧
    responseOf (exec .chipHashrate (withWord 0x80A80265 #v[0, 0, 0, 0])) = some (.result (.hashRate 50000000000)) := by
  decide +kernel
/-- V-RAMP-5 with its toggled delays, V-RAMP-3, V-RAMP-4. -/
theorem test_ramps :
    responseOf (exec (.chipRamp 400) (withWord 0xC0B40250 #v[0, 0, 0, 0])) = some (.result (.rampSteps
      [⟨0xC0B70250, 2300⟩, ⟨0xC0BA0250, 400⟩, ⟨0xC0BD0250, 2300⟩, ⟨0xC0A00240, 400⟩])) ∧
    responseOf (exec (.chipRamp 50) at75) = some (.result (.rampSteps [⟨0xC0A80265, 400⟩])) ∧
    responseOf (exec (.chipRamp 60) State.reset) =
      some (.result (.rampSteps [⟨0xC0A20255, 400⟩, ⟨0xC0A80264, 400⟩])) := by decide +kernel
/-- V-RAMP-10 and V-RAMP-11: what a faulting ramp leaves. -/
theorem test_ramp_faults :
    nextOf (exec (.chipRamp 75) (withCap 3)) = some { withCap 3 with
      plls := [⟨0xC0A50254, #v[0, 0, 0, 0]⟩, ⟨0x40700111, #v[0, 0, 0, 0]⟩]
      fault := some ⟨.capacityExceeded, ⟨0x32, [.q 75]⟩, some (275 / 4)⟩
      response := some (.fault ⟨.capacityExceeded, ⟨0x32, [.q 75]⟩, some (275 / 4)⟩) } ∧
    responseOf (exec (.chipRamp 50) (withWord 0xC0A80265 #v[1, 0, 0, 0])) =
      some (.fault ⟨.noDividerFound, ⟨0x32, [.q 50]⟩, some (125 / 4)⟩) := by decide +kernel

/-! ## Construction, steps and the transcriber -/

/-- R231. -/
theorem test_construct : nextOf (construct 25 Config.vectors) = some State.reset ∧
    refusalOf (construct (100 / 4 + 1) Config.vectors) = some .unsupportedInputClock := by decide +kernel
/-- R21: records run in arrival order; P7: the second is refused by the faulted block. -/
theorem test_records_run_in_order :
    responseOf (step { State.reset with pending := [⟨0x19, [.u8 0, .u32 256]⟩, ⟨0x11, [.u8 0]⟩] }) =
      some (.fault ⟨.operandRange, ⟨0x19, [.u8 0, .u32 256]⟩, none⟩) ∧
    (nextOf (step { State.reset with pending := [⟨0x19, [.u8 0, .u32 256]⟩, ⟨0x11, [.u8 0]⟩] })).bind
      (fun t => responseOf (step t)) = some (.fault ⟨.operandRange, ⟨0x19, [.u8 0, .u32 256]⟩, none⟩) := by
  decide +kernel
/-- V-FLT-12; R70. -/
theorem test_illegal_and_malformed_records :
    responseOf (step { State.reset with pending := [⟨0x00, []⟩] }) =
      some (.fault ⟨.illegalOperation, ⟨0x00, []⟩, none⟩) ∧
    refusalOf (step { State.reset with pending := [⟨0x11, []⟩] }) = some .malformedRecord := by decide +kernel
/-- The examples of R79, and a fraction and an underscore. -/
theorem test_assemble :
    assemble "pll.freq 0, 0".toList = some ⟨0x10, [.u8 0, .u8 0]⟩ ∧
    assemble "pll.setfreq 0, 0, 75, 0.001".toList = some ⟨0x12, [.u8 0, .u8 0, .q 75, .q (1 / 1000)]⟩ ∧
    assemble "nonce.scidv 0x2000A000".toList = some ⟨0x22, [.u32 0x2000A000]⟩ ∧
    assemble "nonce.rolldur".toList = some ⟨0x24, []⟩ ∧
    assemble "chip.ramp 2325/28".toList = some ⟨0x32, [.q (2325 / 28)]⟩ ∧
    assemble "chip.ramp 56.25".toList = some ⟨0x32, [.q (225 / 4)]⟩ ∧
    assemble "chip.vrenable 0x1FFF_E000".toList = some ⟨0x30, [.u32 0x1FFFE000]⟩ := by decide +kernel
/-- R70: a missing field, a value that is not of the type. -/
theorem test_assemble_refuses :
    assemble "pll.freq 0, 0,".toList = none ∧ assemble "pll.freq 0".toList = none ∧
    assemble "pll.param 256".toList = none ∧ assemble "chip.vrenable 1__2".toList = none := by decide +kernel
/-- R80's example, as P2 expands it. -/
theorem test_configure :
    assembleConfigure ("pll.configure 1, ".toList ++ [openBrace] ++
      "lock: true, enable: true, fb: 112, ref: 1, post1: 1, post2: 1, od: [(2, 6)]".toList ++ [closeBrace]) =
    some [.pllLock 1, .pllEnable 1, .pllSetfbdiv 1 112, .pllSetrefdiv 1 1, .pllSetpost1 1 1, .pllSetpost2 1 1,
      .pllSetoutdiv 1 2 6] := by decide +kernel

/-! ## Witnesses: for each obligation with hypotheses, concrete values that meet them together, clause by clause -/

/-- The next state of an outcome on concrete values. -/
def nextState (o : Host.Outcome State Fault Refusal) : State := (nextOf o).getD State.reset

theorem next_of_isSome {o : Host.Outcome State Fault Refusal} (h : (nextOf o).isSome = true) : o = .next (nextState o) := by
  cases o <;> simp_all [nextOf, nextState]

/-- `s` with one record presented. -/
def presented (rec : OpRecord) (s : State) : State := { s with pending := [rec] }

/-- A state of the invariant in which a ramp from 75 to 100 MHz is presented. -/
def rampPresented : State := presented ⟨0x32, [.q 100]⟩ at75

theorem legal_of_unfaulted {s : State} (hc : s.cfg.wellFormed = true) (hb : s.plls.length = s.cfg.pllCount)
    (hl : s.plls.all pllLegal = true) (hr : s.vrEn = false) (hf : s.fault = none) : LegalState s where
  config := hc
  bank := hb
  legal := by simpa using hl
  rolling := by simp [hr]
  answered := by simp [hf]
  noDivideByZero := by simp [hf]
  detailOfRamp := by simp [hf]

theorem legal_rampPresented : LegalState rampPresented :=
  legal_of_unfaulted (by decide +kernel) (by decide +kernel) (by decide +kernel) rfl rfl

theorem legal_at75 : LegalState at75 :=
  legal_of_unfaulted (by decide +kernel) (by decide +kernel) (by decide +kernel) rfl rfl

/-- A faulted state with version rolling on is in the invariant too. -/
theorem legal_faulted_rolling : LegalState { faulted with vrEn := true, vrMask := 1 } where
  config := by decide +kernel
  bank := by decide +kernel
  legal := by decide +kernel
  rolling := by decide +kernel
  answered := by simp [faulted]
  noDivideByZero := by simp [faulted]
  detailOfRamp := by simp [faulted]

theorem witness_ResetGivesEveryPieceItsValue :
    Config.vectors.wellFormed = true ∧ (⟨0x40700111, #v[0, 0, 0, 0]⟩ : Pll) ∈ Config.vectors.pllDefaults := by
  decide +kernel

theorem witness_ConstructionNeedsThe25MHzClock : (25 : Rat) = 25 ∧ (24 : Rat) ≠ 25 := by decide +kernel

theorem witness_ResetHashClockIs50MHzAndUartPllIsEnabled : (geometry 16 8).wellFormed = true := by decide +kernel

theorem witness_ResetMeetsTheInvariant : (geometry 24 0).wellFormed = true := by decide +kernel

theorem witness_EveryStepKeepsTheInvariant :
    LegalState rampPresented ∧ step rampPresented = .next (nextState (step rampPresented)) :=
  ⟨legal_rampPresented, next_of_isSome (by decide +kernel)⟩

theorem witness_NoStepWritesTheConfiguration : step rampPresented = .next (nextState (step rampPresented)) :=
  next_of_isSome (by decide +kernel)

theorem witness_StepRunsTheDecodedOperation :
    (rampPresented.pending = ⟨0x32, [.q 100]⟩ :: [] ∧ decode ⟨0x32, [.q 100]⟩ = .op (.chipRamp 100)) ∧
    at75.pending = [] := by decide +kernel

theorem witness_IllegalOpcodeFaultsAndChangesNothingElse :
    ∀ code ∈ [0x00#8, 0x0F#8, 0x1C#8, 0x1F#8, 0x25#8, 0x2F#8, 0x33#8, 0xFF#8],
      (presented ⟨code, []⟩ at75).pending = [⟨code, []⟩] ∧
      (code.toNat ≤ 0x0F ∨ (0x1C ≤ code.toNat ∧ code.toNat ≤ 0x1F) ∨ (0x25 ≤ code.toNat ∧ code.toNat ≤ 0x2F) ∨
        0x33 ≤ code.toNat) ∧ (presented ⟨code, []⟩ at75).fault = none := by decide +kernel

theorem witness_FaultIsStickyAndItsRecordIsRepeated :
    ∀ rec ∈ [encode (.pllParam 0), ⟨0x00, []⟩],
      (presented rec faulted).fault = some ⟨.operandRange, ⟨0x11, [.u8 2]⟩, none⟩ ∧
      (presented rec faulted).pending = [rec] ∧ decode rec ≠ .malformed := by decide +kernel

theorem witness_FaultRecordsItsOperation :
    at75.fault = none ∧
    exec (.pllParam 2) at75 = .next (at75.faultedBy (.pllParam 2) .operandRange none) ∧
    (at75.faultedBy (.pllParam 2) .operandRange none).fault = some ⟨.operandRange, encode (.pllParam 2), none⟩ ∧
    exec (.chipRamp 40) at75 = .next (at75.faultedBy (.chipRamp 40) .noDividerFound (some 40)) :=
  ⟨rfl, next_of_nextOf (by decide +kernel), rfl, next_of_nextOf (by decide +kernel)⟩

theorem witness_FaultsArePreciseExceptInRamp :
    (∀ f, Instr.pllSetfreq 0 0 77 (1 / 1000) ≠ .chipRamp f) ∧ at75.fault = none ∧
    exec (.pllSetfreq 0 0 77 (1 / 1000)) at75 =
      .next (at75.faultedBy (.pllSetfreq 0 0 77 (1 / 1000)) .noDividerFound none) :=
  ⟨by simp, rfl, next_of_nextOf (by decide +kernel)⟩

theorem witness_MalformedRecordIsRefused :
    formatOf 0x17 = some .ptv ∧ conforms Format.ptv.kinds [.u8 255, .u8 255, .u32 0xFFFFFFFF] = true ∧
    formatOf 0x32 = some .f ∧ conforms Format.f.kinds [.q 0] = true ∧
    conforms Format.f.kinds [.q (-1 / 1000)] = false ∧ conforms Format.f.kinds [] = false := by decide +kernel

theorem witness_DecodeAndEncodeAgree :
    (Instr.chipRamp 0).wellFormed = true ∧ decode (encode (.chipRamp 0)) = .op (.chipRamp 0) := by decide +kernel

theorem witness_FreqReturnsTheTapFrequency :
    at75.fault = none ∧ (3#8).toNat < 4 ∧ (4 ≤ (4#8).toNat) ∧
    at75.plls[(1#8).toNat]? = some ⟨0x40700111, #v[0, 0, 0, 0]⟩ ∧ bitsOf 0x40700111 15 8 ≠ 0 ∧
    (withWord 0xC0A80065 #v[0, 0, 0, 0]).plls[(0#8).toNat]? = some ⟨0xC0A80065, #v[0, 0, 0, 0]⟩ ∧
    bitsOf 0xC0A80065 15 8 = 0 ∧ at75.plls.length ≤ (2#8).toNat := by decide +kernel

theorem witness_ParamReturnsTheWholeWord :
    at75.fault = none ∧ at75.plls[(1#8).toNat]? = some ⟨0x40700111, #v[0, 0, 0, 0]⟩ ∧
    at75.plls.length ≤ (2#8).toNat := by decide +kernel

theorem witness_LockAndUnlockWriteBit31 :
    at75.fault = none ∧ at75.plls[(0#8).toNat]? = some ⟨0xC0A80263, #v[0, 0, 0, 0]⟩ ∧
    at75.plls.length ≤ (255#8).toNat := by decide +kernel

theorem witness_EnableAndDisableWriteBit30 :
    at75.fault = none ∧ at75.plls[(1#8).toNat]? = some ⟨0x40700111, #v[0, 0, 0, 0]⟩ ∧
    at75.plls.length ≤ (2#8).toNat := by decide +kernel

theorem witness_SetOutDivWritesOneTap :
    at75.fault = none ∧ (3#8).toNat < 4 ∧ at75.plls[(1#8).toNat]? = some ⟨0x40700111, #v[0, 0, 0, 0]⟩ ∧
    (15#32).toNat ≤ 15 ∧ 4 ≤ (4#8).toNat ∧ 15 < (16#32).toNat ∧ at75.plls.length ≤ (2#8).toNat := by decide +kernel

theorem witness_SetRefDivWritesItsField :
    at75.fault = none ∧ at75.plls[(0#8).toNat]? = some ⟨0xC0A80263, #v[0, 0, 0, 0]⟩ ∧
    2 < (3#32).toNat ∧ at75.plls.length ≤ (2#8).toNat := by decide +kernel

theorem witness_SetFbDivWritesItsField :
    at75.fault = none ∧ at75.plls[(0#8).toNat]? = some ⟨0xC0A80263, #v[0, 0, 0, 0]⟩ ∧
    (255#32).toNat ≤ 255 ∧ 255 < (256#32).toNat ∧ at75.plls.length ≤ (2#8).toNat := by decide +kernel

theorem witness_SetPostDividersWriteTheirFields :
    at75.fault = none ∧ at75.plls[(0#8).toNat]? = some ⟨0xC0A80263, #v[0, 0, 0, 0]⟩ ∧
    1 ≤ (1#32).toNat ∧ (7#32).toNat ≤ 7 ∧ 7 < (8#32).toNat ∧ at75.plls.length ≤ (2#8).toNat := by decide +kernel

theorem witness_SetFreqWritesThePackedWord :
    at75.fault = none ∧ at75.plls[(1#8).toNat]? = some ⟨0x40700111, #v[0, 0, 0, 0]⟩ ∧ (3#8).toNat < 4 ∧
    search 5975 (1 / 1000) = some ⟨1, 1, 1, 239⟩ ∧ search 77 (1 / 1000) = none ∧
    (1#8).toNat < at75.plls.length ∧ at75.plls.length ≤ (2#8).toNat ∧ 4 ≤ (4#8).toNat := by decide +kernel

theorem witness_SearchReturnsTheFirstOfSmallestProduct :
    AcceptedCandidate 75 (1 / 1000) ⟨2, 7, 5, 210⟩ ∧ AcceptedCandidate 75 (1 / 1000) ⟨2, 7, 4, 168⟩ ∧
    search 75 (1 / 1000) = some ⟨2, 7, 4, 168⟩ ∧ search 77 (1 / 1000) = none := by
  refine ⟨?_, ?_, by decide +kernel, by decide +kernel⟩ <;>
    refine ⟨.inr rfl, by norm_num, by norm_num, by norm_num, ?_, by norm_num, by norm_num, by norm_num⟩ <;>
    exact (Int.floor_eq_iff.mpr (by norm_num)).symm

theorem witness_SearchReachIs2000Over49To5975 :
    search (2000 / 49) (1 / 1000) = some ⟨2, 7, 7, 160⟩ ∧ search 5975 (1 / 1000) = some ⟨1, 1, 1, 239⟩ ∧
    (0 : Rat) ≤ 0 ∧ (2000 / 49 - 1 / 1000 : Rat) + 1 / 1000 ≤ 2000 / 49 ∧
    (5975 : Rat) ≤ (5975 + 1 / 1000) - 1 / 1000 := by decide +kernel

theorem witness_VcoBitOfSearchWords :
    search 1500 (1 / 1000) = some ⟨1, 3, 1, 180⟩ ∧ search 600 (1 / 1000) = some ⟨2, 4, 1, 192⟩ ∧
    search (4775 / 2) (1 / 1000) = some ⟨2, 1, 1, 191⟩ := by decide +kernel

theorem witness_SetFreqLandsWithinTolerance :
    at75.fault = none ∧ exec (.pllSetfreq 0 3 77 (1 / 2)) at75 =
      .next { withWord 0xC0AC0263 #v[0, 0, 0, 0] with response := some (.result .ok) } ∧ (3#8).toNat < 4 :=
  ⟨rfl, next_of_nextOf (by decide +kernel), by decide⟩

theorem witness_FlagSettersMoveNoFrequency :
    ∀ j ∈ [Instr.pllLock 1, .pllUnlock 0, .pllEnable 1, .pllDisable 0],
      at75.fault = none ∧ exec j at75 = .next (nextState (exec j at75)) ∧ (nextState (exec j at75)).fault = none := by
  intro j hj
  refine ⟨rfl, next_of_isSome ?_, ?_⟩
  · revert j; decide +kernel
  · revert j; decide +kernel

theorem witness_VcoAndReservedBitsAreTheSearchsOwn :
    exec (.pllSetfreq 0 0 600 (1 / 1000)) (withWord 0xE5C80263 #v[0, 0, 0, 0]) =
      .next { withWord 0xD0C00230 #v[0, 0, 0, 0] with response := some (.result .ok) } ∧
    (0xD0C00230 : U32) ≠ 0xE5C80263 ∧
    exec (.pllSetfbdiv 0 168) (withWord 0xE5C80263 #v[0, 0, 0, 0]) =
      .next { withWord 0xE5A80263 #v[0, 0, 0, 0] with response := some (.result .ok) } ∧
    exec (.chipRamp 75) at75 = .next (nextState (exec (.chipRamp 75) at75)) ∧
    (nextState (exec (.chipRamp 75) at75)).fault = none :=
  ⟨next_of_nextOf (by decide +kernel), by decide, next_of_nextOf (by decide +kernel), next_of_isSome (by decide +kernel),
    by decide +kernel⟩

theorem witness_OperationsOnDifferentPllsCommute :
    let i := Instr.pllParam 0
    let j := Instr.pllSetfbdiv 1 255
    let s₁ := nextState (exec i at75)
    let s₂ := nextState (exec j at75)
    pllOperand i = some 0 ∧ pllOperand j = some 1 ∧ (0 : U8) ≠ 1 ∧ exec i at75 = .next s₁ ∧
    exec j s₁ = .next (nextState (exec j s₁)) ∧ exec j at75 = .next s₂ ∧ exec i s₂ = .next (nextState (exec i s₂)) ∧
    (nextState (exec j s₁)).fault = none ∧ (nextState (exec i s₂)).fault = none :=
  ⟨rfl, rfl, by decide, next_of_isSome (by decide +kernel), next_of_isSome (by decide +kernel),
    next_of_isSome (by decide +kernel), next_of_isSome (by decide +kernel), by decide +kernel, by decide +kernel⟩

theorem witness_NothingOutsideTheWriteSetChanges :
    exec (.pllSetoutdiv 0 1 2) at75 =
      .next { withWord 0xC0A80263 #v[0, 2, 0, 0] with response := some (.result .ok) } ∧
    (∀ m, Instr.pllSetoutdiv 0 1 2 ≠ .chipVrenable m) ∧
    at75.plls[0]? = some ⟨0xC0A80263, #v[0, 0, 0, 0]⟩ ∧ outDivWritten (.pllSetoutdiv 0 1 2) 0 0 = false ∧
    readOnly (.pllFreq 0 0) = true :=
  ⟨next_of_nextOf (by decide +kernel), by simp, by decide +kernel, by decide +kernel, rfl⟩

theorem witness_AnswersDependOnTheReadSetOnly :
    let s := withWord 0x00A80263 #v[0, 2, 3, 4]
    let s' := { at75 with vrMask := 5 }
    s.fault = none ∧ s'.fault = none ∧ s'.cfg = s.cfg ∧ s'.plls.length = s.plls.length ∧
    sameReads (.pllFreq 0 0) s s' ∧ exec (.pllFreq 0 0) s = .next (nextState (exec (.pllFreq 0 0) s)) ∧
    exec (.pllFreq 0 0) s' = .next (nextState (exec (.pllFreq 0 0) s')) := by
  refine ⟨rfl, rfl, rfl, rfl, ?_, next_of_isSome (by decide +kernel), next_of_isSome (by decide +kernel)⟩
  simp only [sameReads, sameTap]
  decide +kernel

theorem witness_ReadingHasNoSideEffect :
    readOnly (.pllFreq 0 4) = true ∧ at75.fault = none ∧
    exec (.pllFreq 0 4) at75 = .next (nextState (exec (.pllFreq 0 4) at75)) ∧
    exec (.pllFreq 0 3) at75 = .next (nextState (exec (.pllFreq 0 3) at75)) ∧
    (nextState (exec (.pllFreq 0 3) at75)).fault = none :=
  ⟨rfl, rfl, next_of_isSome (by decide +kernel), next_of_isSome (by decide +kernel), by decide +kernel⟩

/-- The extreme geometries of R9: (C, S) = (24, 0), (16, 8) and (1, 0), in both modes. -/
theorem witness_CoreIdIsTheTopBits :
    ∀ s ∈ [State.resetOf (geometry 24 0), rolling 16 8 1, rolling 1 0 0x80000000],
      s.fault = none ∧ s.cfg.nonceFits = true := by decide +kernel

theorem witness_SmallCoreIdWithRollingOff :
    ((State.resetOf (geometry 1 0)).fault = none ∧ (geometry 1 0).nonceFits = true ∧
      (State.resetOf (geometry 1 0)).vrEn = false) ∧
    ((rolling 16 8 1).fault = none ∧ (geometry 16 8).nonceFits = true ∧ (rolling 16 8 1).vrEn = true) := by
  decide +kernel

theorem witness_SmallCoreIdFromTheVersionWord :
    ((rolling 8 3 0x80000000).cfg.nonceFits = true ∧ (rolling 8 3 0x80000000).fault = none ∧
      (rolling 8 3 0x80000000).vrEn = true ∧ (rolling 8 3 0x80000000).vrMask.getLsbD 31 = true ∧
      ∀ j < 31, (rolling 8 3 0x80000000).vrMask.getLsbD j = false) ∧
    ((rolling 8 3 3).vrMask.getLsbD 0 = true ∧ ∀ j < 0, (rolling 8 3 3).vrMask.getLsbD j = false) ∧
    (at75.cfg.nonceFits = true ∧ at75.vrEn = false) ∧
    ((rolling 8 3 0).cfg.nonceFits = true ∧ (rolling 8 3 0).vrEn = true ∧ (rolling 8 3 0).vrMask = 0) := by
  decide +kernel

theorem witness_ChipAddressInBothModes :
    ((rolling 24 0 0).cfg.nonceFits = true ∧ (rolling 24 0 0).fault = none ∧ (rolling 24 0 0).vrEn = true) ∧
    ((State.resetOf (geometry 16 8)).cfg.nonceFits = true ∧ (State.resetOf (geometry 16 8)).vrEn = false) := by
  decide +kernel

theorem witness_RollingDurationIsSpaceOverFrequency :
    (at75.cfg.nonceFits = true ∧ at75.fault = none ∧ at75.plls[0]? = some ⟨0xC0A80263, #v[0, 0, 0, 0]⟩ ∧
      bitsOf 0xC0A80263 15 8 ≠ 0 ∧ bitsOf 0xC0A80263 23 16 ≠ 0 ∧ at75.vrEn = false) ∧
    (bitsOf 0xC0000065 15 8 = 0) ∧ (bitsOf 0xC0000265 15 8 ≠ 0 ∧ bitsOf 0xC0000265 23 16 = 0) ∧
    ((rolling 16 8 0).cfg.nonceFits = true ∧ (rolling 16 8 0).vrEn = true ∧ (rolling 16 8 0).vrMask = 0) ∧
    ((rolling 16 8 0xFFFFFFFF).vrEn = true ∧ (rolling 16 8 0xFFFFFFFF).vrMask ≠ 0 ∧
      (rolling 16 8 0xFFFFFFFF).plls[0]? = some ⟨0xC0A80265, #v[0, 0, 0, 0]⟩) := by decide +kernel

/-- Every field at its largest value; with version rolling on, the mask whose field ends at bit 31. -/
theorem witness_NonceFieldsRoundTrip :
    (at75.fault = none ∧ at75.cfg.nonceFits = true ∧ at75.cfg.coreIdBits = 8 ∧ at75.cfg.smallCoreIdBits = 3 ∧
      255 < 2 ^ 8 ∧ 7 < 2 ^ 3 ∧ 255 < 256 ∧ at75.vrEn = false) ∧
    ((rolling 8 3 0x20000000).fault = none ∧ (rolling 8 3 0x20000000).cfg.nonceFits = true ∧
      (rolling 8 3 0x20000000).vrEn = true ∧ (rolling 8 3 0x20000000).vrMask ≠ 0 ∧
      tzc (rolling 8 3 0x20000000).vrMask + 3 ≤ 32) := by decide +kernel

theorem witness_RollingDurationFallsAsFrequencyRises :
    let s := State.reset
    at75.cfg = s.cfg ∧ at75.vrEn = s.vrEn ∧ at75.vrMask = s.vrMask ∧
    s.plls[0]? = some ⟨0xC0A80265, #v[0, 0, 0, 0]⟩ ∧ at75.plls[0]? = some ⟨0xC0A80263, #v[0, 0, 0, 0]⟩ ∧
    exec .nonceRolldur s = .next (s.answered (.duration (64 / 390625))) ∧
    exec .nonceRolldur at75 = .next (at75.answered (.duration (128 / 1171875))) ∧ s.fault = none ∧ at75.fault = none ∧
    preFreqOf 0xC0A80265 / ((0#8).toNat + 1) < preFreqOf 0xC0A80263 / ((0#8).toNat + 1) := by
  refine ⟨rfl, rfl, rfl, rfl, rfl, next_of_nextOf (by decide +kernel), next_of_nextOf (by decide +kernel), rfl, rfl, ?_⟩
  decide +kernel

theorem witness_SearchedNonceBitsAreNotDecoded :
    (at75.cfg.nonceFits = true ∧ 13 = 24 - at75.cfg.coreIdBits - at75.cfg.smallCoreIdBits ∧
      (0x5AA78000#32).toNat / 2 ^ 13 = (0x5AA79FFF#32).toNat / 2 ^ 13 ∧ at75.fault = none ∧ at75.vrEn = false) ∧
    ((rolling 8 3 1).cfg.nonceFits = true ∧ 16 = 24 - (rolling 8 3 1).cfg.coreIdBits ∧ (rolling 8 3 1).vrEn = true ∧
      (0x5AA70000#32).toNat / 2 ^ 16 = (0x5AA7FFFF#32).toNat / 2 ^ 16 ∧ (rolling 8 3 1).fault = none) := by
  decide +kernel

theorem witness_VrEnableSetsModeAndMask :
    (at75.fault = none ∧ at75.cfg.supportsVr = true ∧ (1 : U32) ≠ 0) ∧
    (State.resetOf { Config.vectors with supportsVr := false }).cfg.supportsVr = false := by decide +kernel

theorem witness_NoStepClearsVersionRolling :
    let s := presented ⟨0x30, [.u32 1]⟩ (rolling 8 3 0x1FFFE000)
    step s = .next (nextState (step s)) ∧ s.vrEn = true ∧
    exec (.chipVrenable 1) at75 = .next (nextState (exec (.chipVrenable 1) at75)) ∧
    (nextState (exec (.chipVrenable 1) at75)).vrEn ≠ at75.vrEn :=
  ⟨next_of_isSome (by decide +kernel), rfl, next_of_isSome (by decide +kernel), by decide +kernel⟩

theorem witness_HashRateIsHashFrequencyTimesSmallCores :
    at75.fault = none ∧ at75.plls[0]? = some ⟨0xC0A80263, #v[0, 0, 0, 0]⟩ ∧ bitsOf 0xC0A80263 15 8 ≠ 0 ∧
    (withWord 0xC0A80063 #v[0, 0, 0, 0]).plls[0]? = some ⟨0xC0A80063, #v[0, 0, 0, 0]⟩ ∧ bitsOf 0xC0A80063 15 8 = 0 := by
  decide +kernel

theorem witness_DefensiveFaultsAreUnreachable :
    LegalState at75 ∧ at75.fault = none ∧
    exec (.chipVrenable 0) at75 = .next (at75.faultedBy (.chipVrenable 0) .zeroVersionMask none) :=
  ⟨legal_at75, rfl, next_of_nextOf (by decide +kernel)⟩

/-- Exactly CMD_CAP steps, and the two ends of the one-step case. -/
theorem witness_RampReturnsEveryStep :
    ((withCap 4).fault = none ∧ (withCap 4).plls[0]? = some ⟨0xC0A80265, #v[0, 0, 0, 0]⟩ ∧
      bitsOf 0xC0A80265 15 8 ≠ 0 ∧ (50 : Rat) = preFreqOf 0xC0A80265 / ((0#8).toNat + 1) ∧ 4 = rampCount 50 75 ∧
      4 ≤ (withCap 4).cfg.cmdCap ∧ ∀ k < 4, search (rampFreq 50 75 k) (withCap 4).cfg.rampTol ≠ none) ∧
    (1 = rampCount 50 (225 / 4) ∧ ∀ k < 1, search (rampFreq 50 (225 / 4) k) (1 / 1000) ≠ none) ∧
    (1 = rampCount 75 50 ∧ ∀ k < 1, search (rampFreq 75 50 k) (1 / 1000) ≠ none) := by decide +kernel

/-- At the first step (V-RAMP-9), and at the second: from 743.75 MHz through 750 to 756.25. -/
theorem witness_RampStopsAtAStepWithoutCandidate :
    (0 < rampCount 50 40 ∧ 0 < State.reset.cfg.cmdCap ∧ search (rampFreq 50 40 0) (1 / 1000) = none ∧
      (50 : Rat) = preFreqOf 0xC0A80265 / ((0#8).toNat + 1)) ∧
    ((withWord 0xD0EE0230 #v[0, 0, 0, 0]).plls[0]? = some ⟨0xD0EE0230, #v[0, 0, 0, 0]⟩ ∧
      (withWord 0xD0EE0230 #v[0, 0, 0, 0]).fault = none ∧ bitsOf 0xD0EE0230 15 8 ≠ 0 ∧
      (2975 / 4 : Rat) = preFreqOf 0xD0EE0230 / ((0#8).toNat + 1) ∧ 1 < rampCount (2975 / 4) 1000 ∧
      1 < (withWord 0xD0EE0230 #v[0, 0, 0, 0]).cfg.cmdCap ∧
      (∀ j < 1, search (rampFreq (2975 / 4) 1000 j) (1 / 1000) ≠ none) ∧
      search (rampFreq (2975 / 4) 1000 1) (1 / 1000) = none) := by decide +kernel

theorem witness_RampStopsAtItsCapacity :
    ∀ n ∈ [1, 3], (withCap n).fault = none ∧ (withCap n).plls[0]? = some ⟨0xC0A80265, #v[0, 0, 0, 0]⟩ ∧
      bitsOf 0xC0A80265 15 8 ≠ 0 ∧ (50 : Rat) = preFreqOf 0xC0A80265 / ((0#8).toNat + 1) ∧
      1 ≤ (withCap n).cfg.cmdCap ∧ (withCap n).cfg.cmdCap < rampCount 50 75 ∧
      ∀ j < (withCap n).cfg.cmdCap, search (rampFreq 50 75 j) (withCap n).cfg.rampTol ≠ none := by decide +kernel

theorem witness_RampFrom50To75HasFourSteps :
    (withCap 4).fault = none ∧ (withCap 4).plls[0]? = some ⟨0xC0A80265, #v[0, 0, 0, 0]⟩ ∧
    bitsOf 0xC0A80265 15 8 ≠ 0 ∧ preFreqOf 0xC0A80265 / ((0#8).toNat + 1) = 50 ∧
    0 < (withCap 4).cfg.rampTol ∧ 4 ≤ (withCap 4).cfg.cmdCap := by decide +kernel

theorem witness_RampAskedAgainIsOneStep :
    State.reset.fault = none ∧ State.reset.plls[0]? = some ⟨0xC0A80265, #v[0, 0, 0, 0]⟩ ∧ (0#8).toNat = 0 ∧
    State.reset.cfg.rampTol ≤ 25 / 4 ∧
    exec (.chipRamp 400) State.reset = .next (nextState (exec (.chipRamp 400) State.reset)) ∧
    (nextState (exec (.chipRamp 400) State.reset)).fault = none :=
  ⟨rfl, rfl, rfl, by decide +kernel, next_of_isSome (by decide +kernel), by decide +kernel⟩

theorem witness_ConfigureSetsEveryGivenField :
    at75.fault = none ∧ at75.plls[(1#8).toNat]? = some ⟨0x40700111, #v[0, 0, 0, 0]⟩ ∧ (3#8).toNat < 4 ∧
    (255#32).toNat ≤ 255 ∧ ((2 : U32) = 1 ∨ (2 : U32) = 2) ∧ 1 ≤ (1#32).toNat ∧ (7#32).toNat ≤ 7 ∧
    (15#32).toNat ≤ 15 := by decide +kernel

theorem witness_AssemblerReadsWhatItPrints :
    (Instr.pllSetfreq 255 3 (9 / 4) (-1 / 7)).wellFormed = true ∧
    print (.pllSetfreq 255 3 (9 / 4) (-1 / 7)) = "pll.setfreq 255, 3, 9/4, -1/7".toList := by decide +kernel

end Sys2Proof.Tests
end

section
/-!
PROOFS of the statements about the state: what a step can do, what every instruction can raise and what it leaves
unchanged, and what it reads (10_state.md).
-/
namespace Sys2Proof.Proofs

open Sys2Proof.Machine Sys2Proof.Laws

variable {i : Instr} {s t u : State}

/-! ## What an instruction and a step can do -/

/-- An instruction writes its effect, the response and the fault record, and nothing else. -/
theorem exec_eq_effect_but_port (h : exec i s = .next u) :
    ∃ t, Effect i s t ∧ u = { t with fault := u.fault, response := u.response } := by
  rcases exec_effect h with ⟨r, -, rfl⟩ | ⟨-, t, he, ⟨r, rfl⟩ | ⟨c, d, rfl⟩⟩
  · exact ⟨s, .nothing, rfl⟩
  · exact ⟨t, he, rfl⟩
  · exact ⟨t, he, rfl⟩

/-- Every instruction gives a next state. -/
theorem exec_next (i : Instr) (s : State) : ∃ u, exec i s = .next u := by
  obtain ⟨u, r, h, -⟩ := transact_answers (encode i) (opOf i) s
  exact ⟨u, exec_eq_transact i s ▸ h⟩

/-- Everything an illegal opcode can do: the record repeated, or IllegalOperation taken (30_encoding.md R69). -/
theorem illegalOperation_cases {rec : OpRecord} (h : illegalOperation rec s = .next u) :
    (∃ r, s.fault = some r ∧ u = respond s (.fault r)) ∨
    (s.fault = none ∧ u = takeFault s ⟨.illegalOperation, rec, none⟩) := by
  rcases transact_cases h with h | ⟨-, r, t, hb, -⟩ | ⟨hf, c, d, t, hb, rfl⟩
  · exact .inl h
  · cases hb
  · cases hb
    exact .inr ⟨hf, rfl⟩

/-- With no record presented a step changes nothing. -/
theorem step_of_nil (h : s.pending = []) : step s = .next s := by simp [step, fetch, h]

/-- Everything a step can do: nothing, or, with the oldest record taken from the host's list, the instruction the
record decodes to or the fault of an illegal opcode. -/
theorem step_cases (h : step s = .next u) :
    u = s ∨ ∃ rec rest, s.pending = rec :: rest ∧
      ((∃ i, decode rec = .op i ∧ exec i { s with pending := rest } = .next u) ∨
        illegalOperation rec { s with pending := rest } = .next u) := by
  cases hp : s.pending with
  | nil =>
    rw [step_of_nil hp] at h
    exact .inl (Host.Outcome.next.inj h).symm
  | cons rec rest =>
    rw [step_of_pending hp] at h
    refine .inr ⟨rec, rest, rfl, ?_⟩
    cases hd : decode rec with
    | op i => exact .inl ⟨i, rfl, by simpa [hd] using h⟩
    | illegalOpcode => exact .inr (by simpa [hd] using h)
    | malformed => simp [hd] at h

/-! ## What no effect changes -/

theorem effect_cfg (h : Effect i s t) : t.cfg = s.cfg := by cases h <;> rfl

theorem effect_pending (h : Effect i s t) : t.pending = s.pending := by cases h <;> rfl

theorem effect_fault (h : Effect i s t) : t.fault = s.fault := by cases h <;> rfl

theorem effect_response (h : Effect i s t) : t.response = s.response := by cases h <;> rfl

theorem effect_plls_length (h : Effect i s t) : t.plls.length = s.plls.length := by cases h <;> simp

/-- VRENABLE turns version rolling on, with its mask; every other instruction leaves mode and mask (R31, R160). -/
theorem effect_rolling_cases (h : Effect i s t) :
    (t.vrEn = s.vrEn ∧ t.vrMask = s.vrMask) ∨
    ∃ m, i = .chipVrenable m ∧ s.cfg.supportsVr = true ∧ m ≠ 0 ∧ t.vrEn = true ∧ t.vrMask = m := by
  cases h with
  | rolling hi hs hm => exact .inr ⟨_, hi, hs, hm, rfl, rfl⟩
  | _ => exact .inl ⟨rfl, rfl⟩

/-- A read-only operation has no effect (R39). -/
theorem effect_of_readOnly (h : Effect i s t) (hr : readOnly i = true) : t = s := by
  cases h with
  | nothing => rfl
  | locked _ hi => obtain rfl | rfl := hi <;> cases hr
  | enabled _ hi => obtain rfl | rfl := hi <;> cases hr
  | ref hi | fb hi | post1 hi | post2 hi | outDiv hi | searched hi | ramped hi | rolling hi => subst hi; cases hr

theorem exec_cfg (h : exec i s = .next u) : u.cfg = s.cfg := by
  obtain ⟨t, he, hu⟩ := exec_eq_effect_but_port h
  rw [hu, ← effect_cfg he]

/-- What an instruction can do to the mode and the mask (R31, R160). -/
theorem exec_rolling_cases (h : exec i s = .next u) :
    (u.vrEn = s.vrEn ∧ u.vrMask = s.vrMask) ∨ ∃ m, i = .chipVrenable m ∧ u.vrEn = true := by
  obtain ⟨t, he, hu⟩ := exec_eq_effect_but_port h
  rw [hu]
  rcases effect_rolling_cases he with hr | ⟨m, hi, -, -, hv, -⟩
  · exact .inl hr
  · exact .inr ⟨m, hi, hv⟩

/-! ## The faults an instruction can raise -/

/-- The faults the pseudocode of `i` can raise from `s`, with their details (60_exceptions.md R201). -/
inductive Raisable (i : Instr) (s : State) : FaultCode → Option Rat → Prop
  /-- a PLL index, a tap or a setter value out of range -/
  | range : Raisable i s .operandRange none
  /-- PLL.SETFREQ whose search finds no candidate -/
  | noDivider : Raisable i s .noDividerFound none
  /-- CHIP.VRENABLE on a generation without version rolling -/
  | unsupported (hs : s.cfg.supportsVr = false) : Raisable i s .versionRollingUnsupported none
  /-- CHIP.VRENABLE with a zero mask -/
  | zeroOperand (hi : i = .chipVrenable 0) : Raisable i s .zeroVersionMask none
  /-- NONCE.SCIDV or NONCE.ROLLDUR with version rolling on at a zero mask -/
  | zeroMask (hv : s.vrEn = true) (hm : s.vrMask = 0) : Raisable i s .zeroVersionMask none
  /-- NONCE.SCID or NONCE.SCIDV in the other mode -/
  | mode : Raisable i s .modeMismatch none
  /-- NONCE.ROLLDUR at hash frequency 0 -/
  | zeroHash : Raisable i s .zeroHashFrequency none
  /-- PLL.FREQ at an undefined tap frequency -/
  | tapUndefined {q : Pll} {t : Tap} (hq : q ∈ s.plls) (ht : tapFreq q t = none) : Raisable i s .divideByZero none
  /-- an operation that needs the hash frequency where it is undefined -/
  | hashUndefined (hh : hashFrequency s = none) : Raisable i s .divideByZero none
  /-- CHIP.RAMP at a step without a candidate -/
  | rampGap {f cur : Rat} (hi : i = .chipRamp f) : Raisable i s .noDividerFound (some cur)
  /-- CHIP.RAMP out of its capacity -/
  | rampFull {f cur : Rat} (hi : i = .chipRamp f) : Raisable i s .capacityExceeded (some cur)

/-- What holds of the fault an end of pseudocode raises, if it raises one. -/
def OnRaise (P : FaultCode → Option Rat → Prop) : OpEnd → Prop
  | .done _ _ => True
  | .raised c d _ => P c d

section OnRaise

variable {P : FaultCode → Option Rat → Prop}

theorem onRaise_withPll {p : U8} {k : Pll → OpEnd} (hr : P .operandRange none)
    (hk : ∀ q, s.plls[p.toNat]? = some q → OnRaise P (k q)) : OnRaise P (withPll s p k) := by
  rcases withPll_cases s p k with ⟨-, e⟩ | ⟨q, hq, e⟩ <;> rw [e]
  · exact hr
  · exact hk q hq

theorem onRaise_withTap {b : U8} {k : Tap → OpEnd} (hr : P .operandRange none) (hk : ∀ tap, OnRaise P (k tap)) :
    OnRaise P (withTap s b k) := by
  rcases withTap_cases s b k with ⟨-, e⟩ | ⟨hb, e⟩ <;> rw [e]
  · exact hr
  · exact hk _

theorem onRaise_withValue {v : U32} {lo hi : Nat} {k : OpEnd} (hr : P .operandRange none) (hk : OnRaise P k) :
    OnRaise P (withValue s v lo hi k) := by
  by_cases h : lo ≤ v.toNat ∧ v.toNat ≤ hi
  · rwa [withValue_of_in h]
  · rw [withValue_of_out h]
    exact hr

theorem onRaise_withHashFrequency {k : Rat → OpEnd} (hr : hashFrequency s = none → P .divideByZero none)
    (hk : ∀ f, OnRaise P (k f)) : OnRaise P (withHashFrequency s k) := by
  rcases withHashFrequency_cases s k with ⟨hh, e⟩ | ⟨f, -, e⟩ <;> rw [e]
  · exact hr hh
  · exact hk f

/-- The ramp's loop raises NoDividerFound or CapacityExceeded, each with the value of `cur` (R163, R200). -/
theorem onRaise_rampLoop {target tol : Rat} (hg : ∀ cur, P .noDividerFound (some cur))
    (hf : ∀ cur, P .capacityExceeded (some cur)) (room : Nat) (cur : Rat) (long : Bool) (steps : List RampStep)
    (s : State) : OnRaise P (rampLoop target tol room cur long steps s) := by
  induction room generalizing cur long steps s with
  | zero => exact hf cur
  | succ room ih =>
    rw [rampLoop]
    cases search (min (cur + Config.rampStep) target) tol with
    | none => exact hg _
    | some d =>
      dsimp only
      split
      · trivial
      · exact ih _ _ _ _

end OnRaise

/-- Everything an instruction can raise. -/
theorem opOf_onRaise (i : Instr) (s : State) : OnRaise (Raisable i s) (opOf i s) := by
  cases i with
  | pllFreq p b =>
    refine onRaise_withPll .range fun q hq => onRaise_withTap .range fun tap => ?_
    cases ht : tapFreq q tap with
    | none => exact .tapUndefined (List.mem_of_getElem? hq) ht
    | some f => trivial
  | pllSetfreq p b f tol =>
    refine onRaise_withPll .range fun q _ => onRaise_withTap .range fun tap => ?_
    cases search f tol with
    | none => exact .noDivider
    | some d => trivial
  | pllParam p | pllLock p | pllUnlock p | pllEnable p | pllDisable p => exact onRaise_withPll .range fun _ _ => trivial
  | pllSetoutdiv p b v =>
    exact onRaise_withPll .range fun _ _ => onRaise_withTap .range fun _ => onRaise_withValue .range trivial
  | pllSetrefdiv p v | pllSetfbdiv p v | pllSetpost1 p v | pllSetpost2 p v =>
    exact onRaise_withPll .range fun _ _ => onRaise_withValue .range trivial
  | nonceCoreid n => trivial
  | nonceScid n =>
    simp only [opOf, nonceScidOp]
    split
    · exact .mode
    · trivial
  | nonceScidv ver =>
    simp only [opOf, nonceScidvOp]
    split
    · exact .mode
    · split
      · exact .zeroMask (by simpa using ‹¬(!s.vrEn) = true›) ‹_›
      · trivial
  | nonceChipaddr n =>
    simp only [opOf, nonceChipaddrOp]
    split <;> trivial
  | nonceRolldur =>
    refine onRaise_withHashFrequency .hashUndefined fun f => ?_
    split
    · exact .zeroHash
    · split
      · split
        · exact .zeroMask ‹_› ‹_›
        · trivial
      · trivial
  | chipVrenable m =>
    simp only [opOf, chipVrenableOp]
    split
    · exact .unsupported (by simpa using ‹(!s.cfg.supportsVr) = true›)
    · split
      · subst m
        exact .zeroOperand rfl
      · trivial
  | chipHashrate => exact onRaise_withHashFrequency .hashUndefined fun _ => trivial
  | chipRamp f =>
    exact onRaise_withHashFrequency .hashUndefined fun _ =>
      onRaise_rampLoop (fun _ => .rampGap rfl) (fun _ => .rampFull rfl) _ _ _ _ _

theorem raisable_of_opOf {c : FaultCode} {d : Option Rat} (h : opOf i s = .raised c d t) : Raisable i s c d := by
  have hr := opOf_onRaise i s
  rwa [h] at hr

/-- Only a ramp raises a fault with a detail (R200). -/
theorem ramp_of_raisable_detail {c : FaultCode} {d : Option Rat} (h : Raisable i s c d) (hd : d ≠ none) :
    ∃ f, i = .chipRamp f := by
  cases h with
  | rampGap hi | rampFull hi => exact ⟨_, hi⟩
  | _ => exact absurd rfl hd

/-! ## The invariant -/

/-- The constraints on an admitted configuration, one by one. -/
theorem wellFormed_iff (c : Config) : c.wellFormed = true ↔
    c.nonceFits = true ∧ c.defaultsLegal = true ∧ c.hashDefault = true ∧ c.uartDefault = true ∧
      c.rampParameters = true := by
  simp [Config.wellFormed, and_assoc]

/-- The hash PLL of an admitted configuration exists and gives 50 MHz at reset (R35). -/
theorem exists_hashPll {c : Config} (h : c.wellFormed = true) :
    ∃ q, c.pllDefaults[0]? = some q ∧ tapFreq q 0 = some 50 := by
  obtain ⟨-, -, hh, -, -⟩ := (wellFormed_iff c).mp h
  simpa [Config.hashDefault, Config.hashPll, Config.hashTap, Option.bind_eq_some_iff] using hh

/-- Every PLL of an admitted configuration is legal at reset (R34). -/
theorem pllLegal_of_wellFormed {c : Config} (h : c.wellFormed = true) {q : Pll} (hq : q ∈ c.pllDefaults) :
    pllLegal q = true := by
  obtain ⟨-, hl, -⟩ := (wellFormed_iff c).mp h
  exact List.all_eq_true.mp hl q hq

/-- The tap frequencies of a legal PLL are defined (R25, R101). -/
theorem tapFreq_ne_none_of_legal {q : Pll} (h : pllLegal q = true) (tap : Tap) : tapFreq q tap ≠ none := by
  obtain ⟨href, -⟩ := (pllLegal_iff q).mp h
  rw [tapFreq_of_ref q tap (by omega)]
  exact Option.some_ne_none _

/-- In the invariant the hash frequency is defined. -/
theorem hashFrequency_ne_none (h : LegalState s) : hashFrequency s ≠ none := by
  obtain ⟨q₀, hq₀, -⟩ := exists_hashPll h.config
  have hlen : 0 < s.plls.length := by
    rw [h.bank]
    exact (List.getElem?_eq_some_iff.mp hq₀).1
  have hq : s.plls[0]? = some s.plls[0] := List.getElem?_eq_getElem hlen
  rw [hashFrequency, Config.hashPll, hq]
  exact tapFreq_ne_none_of_legal (h.legal _ (List.getElem_mem hlen)) _

/-- In the invariant no instruction raises DivideByZero (R201, code 9). -/
theorem code_ne_divideByZero (h : LegalState s) {c : FaultCode} {d : Option Rat} (hr : Raisable i s c d) :
    c ≠ .divideByZero := by
  cases hr with
  | tapUndefined hq ht => exact absurd ht (tapFreq_ne_none_of_legal (h.legal _ hq) _)
  | hashUndefined hh => exact absurd hh (hashFrequency_ne_none h)
  | _ => exact nofun

/-- A PLL with a new word is legal when the word's fields are. -/
theorem pllLegal_withParam {q : Pll} {w : U32} (hq : pllLegal q = true) (href : bitsOf w 15 8 = 1 ∨ bitsOf w 15 8 = 2)
    (h1 : bitsOf w 7 4 ≤ 6) (h2 : bitsOf w 3 0 ≤ 6) : pllLegal { q with param := w } = true := by
  obtain ⟨-, -, -, hod⟩ := (pllLegal_iff q).mp hq
  exact (pllLegal_iff _).mpr ⟨href, h1, h2, hod⟩

/-- A field write outside the reference and post dividers keeps a PLL legal. -/
theorem pllLegal_setField_outside {q : Pll} {lo n : Nat} (v : BitVec n) (hq : pllLegal q = true) (h : 16 ≤ lo) :
    pllLegal { q with param := setField q.param lo v } = true := by
  obtain ⟨href, h1, h2, -⟩ := (pllLegal_iff q).mp hq
  refine pllLegal_withParam hq ?_ ?_ ?_ <;> rw [bitsOf_setField_outside _ _ _ _ _ (by omega) (by omega) (by omega)] <;>
    assumption

/-- A search result's word keeps a PLL legal (R105, R108). -/
theorem pllLegal_pack {q : Pll} {f tol : Rat} {d : Dividers} (hq : pllLegal q = true) (hd : search f tol = some d) :
    pllLegal { q with param := pack d } = true := by
  obtain ⟨-, -, eref, e1, e2⟩ := fields_of_search hd
  obtain ⟨href, -, h2, h3, -⟩ := search_bounds hd
  exact pllLegal_withParam hq (by omega) (by omega) (by omega)

theorem byteOf_toNat {v : U32} (h : v.toNat ≤ 255) : (byteOf v).toNat = v.toNat := by
  rw [byteOf, BitVec.toNat_setWidth, Nat.mod_eq_of_lt (by omega)]

theorem postNibbleOf_toNat {v : U32} (h : 1 ≤ v.toNat ∧ v.toNat ≤ 7) : (postNibbleOf v).toNat = v.toNat - 1 := by
  rw [postNibbleOf, BitVec.toNat_setWidth, BitVec.toNat_sub_of_le (by simpa [BitVec.le_def] using h.1),
    show (1 : U32).toNat = 1 from rfl, Nat.mod_eq_of_lt (by omega)]

/-- PLL.SETREFDIV in its range keeps a PLL legal (R117). -/
theorem pllLegal_setRef {q : Pll} {v : U32} (hq : pllLegal q = true) (hv : 1 ≤ v.toNat ∧ v.toNat ≤ 2) :
    pllLegal { q with param := setField q.param 8 (byteOf v) } = true := by
  obtain ⟨-, h1, h2, -⟩ := (pllLegal_iff q).mp hq
  have e : bitsOf (setField q.param 8 (byteOf v)) 15 8 = v.toNat :=
    (bitsOf_setField_same q.param 8 (byteOf v) (by decide) (by decide)).trans (byteOf_toNat (by omega))
  refine pllLegal_withParam hq (by omega) ?_ ?_ <;>
    rwa [bitsOf_setField_outside _ _ _ _ _ (by decide) (by decide) (by decide)]

/-- PLL.SETPOST1 in its range keeps a PLL legal (R119). -/
theorem pllLegal_setPost1 {q : Pll} {v : U32} (hq : pllLegal q = true) (hv : 1 ≤ v.toNat ∧ v.toNat ≤ 7) :
    pllLegal { q with param := setField q.param 4 (postNibbleOf v) } = true := by
  obtain ⟨href, -, h2, -⟩ := (pllLegal_iff q).mp hq
  have e : bitsOf (setField q.param 4 (postNibbleOf v)) 7 4 = v.toNat - 1 :=
    (bitsOf_setField_same q.param 4 (postNibbleOf v) (by decide) (by decide)).trans (postNibbleOf_toNat hv)
  refine pllLegal_withParam hq ?_ (by omega) ?_ <;>
    rwa [bitsOf_setField_outside _ _ _ _ _ (by decide) (by decide) (by decide)]

/-- PLL.SETPOST2 in its range keeps a PLL legal (R120). -/
theorem pllLegal_setPost2 {q : Pll} {v : U32} (hq : pllLegal q = true) (hv : 1 ≤ v.toNat ∧ v.toNat ≤ 7) :
    pllLegal { q with param := setField q.param 0 (postNibbleOf v) } = true := by
  obtain ⟨href, h1, -, -⟩ := (pllLegal_iff q).mp hq
  have e : bitsOf (setField q.param 0 (postNibbleOf v)) 3 0 = v.toNat - 1 :=
    (bitsOf_setField_same q.param 0 (postNibbleOf v) (by decide) (by decide)).trans (postNibbleOf_toNat hv)
  refine pllLegal_withParam hq ?_ ?_ (by omega) <;>
    rwa [bitsOf_setField_outside _ _ _ _ _ (by decide) (by decide) (by decide)]

/-- PLL.SETOUTDIV in its range keeps a PLL legal (R30, R116). -/
theorem pllLegal_setOutDiv {q : Pll} {v : U32} (tap : Tap) (hq : pllLegal q = true) (hv : v.toNat ≤ 15) :
    pllLegal { q with od := q.od.set tap (outDivOf v) } = true := by
  obtain ⟨href, h1, h2, hod⟩ := (pllLegal_iff q).mp hq
  refine (pllLegal_iff _).mpr ⟨href, h1, h2, fun tap' => ?_⟩
  have hv' : (outDivOf v).toNat ≤ 15 := by
    rw [outDivOf, BitVec.toNat_setWidth]
    exact (Nat.mod_le _ _).trans hv
  simp only [Fin.getElem_fin, Vector.getElem_set]
  split
  · exact hv'
  · exact hod tap'

/-- Every entry of a modified list keeps a property that the changed entry has. -/
theorem forall_mem_modify {α : Type} {P : α → Prop} {l : List α} {p : Nat} {f : α → α} (hl : ∀ a ∈ l, P a)
    (hf : ∀ a, l[p]? = some a → P (f a)) : ∀ a ∈ l.modify p f, P a := by
  intro a ha
  obtain ⟨k, hk⟩ := List.mem_iff_getElem?.mp ha
  rw [List.getElem?_modify] at hk
  obtain ⟨b, hb, rfl⟩ := Option.map_eq_some_iff.mp hk
  split
  · subst k
    exact hf b hb
  · exact hl b (List.mem_of_getElem? hb)

/-- A write to the PLL at `p` keeps the bank legal when it keeps that PLL legal. -/
theorem legal_modify {p : Nat} {q : Pll} {f : Pll → Pll} (hl : ∀ a ∈ s.plls, pllLegal a = true)
    (hq : s.plls[p]? = some q) (hf : pllLegal q = true → pllLegal (f q) = true) :
    ∀ a ∈ s.plls.modify p f, pllLegal a = true :=
  forall_mem_modify hl fun a ha => by
    obtain rfl : q = a := Option.some.inj (hq.symm.trans ha)
    exact hf (hl q (List.mem_of_getElem? hq))

/-- No effect makes a PLL illegal (R25). -/
theorem effect_legal (he : Effect i s t) (hl : ∀ q ∈ s.plls, pllLegal q = true) : ∀ q ∈ t.plls, pllLegal q = true := by
  cases he with
  | nothing | rolling => exact hl
  | locked _ _ hq | enabled _ _ hq | fb _ hq => exact legal_modify hl hq fun h => pllLegal_setField_outside _ h (by decide)
  | ref _ hq hv => exact legal_modify hl hq fun h => pllLegal_setRef h hv
  | post1 _ hq hv => exact legal_modify hl hq fun h => pllLegal_setPost1 h hv
  | post2 _ hq hv => exact legal_modify hl hq fun h => pllLegal_setPost2 h hv
  | outDiv _ hq _ hv => exact legal_modify hl hq fun h => pllLegal_setOutDiv _ h hv
  | searched _ hq _ hd => exact legal_modify hl hq fun h => pllLegal_pack h hd
  | ramped _ hd => exact forall_mem_modify hl fun a ha => pllLegal_pack (hl a (List.mem_of_getElem? ha)) hd

/-- The invariant does not speak of the host's list. -/
theorem legal_withPending (h : LegalState s) (rest : List OpRecord) : LegalState { s with pending := rest } :=
  ⟨h.config, h.bank, h.legal, h.rolling, h.answered, h.noDivideByZero, h.detailOfRamp⟩

/-- Every effect keeps the invariant. -/
theorem legal_effect (h : LegalState s) (he : Effect i s t) : LegalState t where
  config := effect_cfg he ▸ h.config
  bank := by rw [effect_plls_length he, effect_cfg he, h.bank]
  legal := effect_legal he h.legal
  rolling := by
    rw [effect_cfg he]
    rcases effect_rolling_cases he with ⟨hv, hm⟩ | ⟨m, -, hs, hm, -, ht⟩
    · rw [hv, hm]
      exact h.rolling
    · exact fun _ => ⟨ht ▸ hm, hs⟩
  answered := by
    rw [effect_fault he, effect_response he]
    exact h.answered
  noDivideByZero := by
    rw [effect_fault he]
    exact h.noDivideByZero
  detailOfRamp := by
    rw [effect_fault he]
    exact h.detailOfRamp

/-- A faulted block's repeated record keeps the invariant (R202). -/
theorem legal_repeat (h : LegalState s) {r : FaultRecord} (hf : s.fault = some r) : LegalState (respond s (.fault r)) :=
  { h with
    answered := fun r' hr' => by
      obtain rfl : r = r' := Option.some.inj (hf.symm.trans hr')
      rfl }

/-- A result keeps the invariant of a block that has not faulted. -/
theorem legal_result (h : LegalState s) (hf : s.fault = none) (r : Result) : LegalState (respond s (.result r)) :=
  { h with answered := fun r' hr' => by rw [respond_fault, hf] at hr'; cases hr' }

/-- Taking a fault keeps the invariant, when its code is not DivideByZero and its detail a ramp's (R200). -/
theorem legal_takeFault (h : LegalState s) {r : FaultRecord} (hc : r.code ≠ .divideByZero)
    (hd : r.detail ≠ none → r.op.opcode = 0x32) : LegalState (takeFault s r) where
  config := h.config
  bank := h.bank
  legal := h.legal
  rolling := h.rolling
  answered r' hr' := by
    obtain rfl : r = r' := Option.some.inj hr'
    rfl
  noDivideByZero r' hr' := by
    obtain rfl : r = r' := Option.some.inj hr'
    exact hc
  detailOfRamp r' hr' := by
    obtain rfl : r = r' := Option.some.inj hr'
    exact hd

/-- Every instruction keeps the invariant. -/
theorem legal_exec (h : LegalState s) (hx : exec i s = .next u) : LegalState u := by
  have he := opOf_effect i s
  rcases exec_cases hx with ⟨r, hf, rfl⟩ | ⟨hf, r, t, ho, rfl⟩ | ⟨hf, c, d, t, ho, rfl⟩
  · exact legal_repeat h hf
  · rw [ho] at he
    exact legal_result (legal_effect h he) (effect_fault he ▸ hf) r
  · rw [ho] at he
    have hr := raisable_of_opOf ho
    refine legal_takeFault (legal_effect h he) (code_ne_divideByZero h hr) fun hd => ?_
    obtain ⟨f, rfl⟩ := ramp_of_raisable_detail hr hd
    rfl

/-- An illegal opcode keeps the invariant (30_encoding.md R69). -/
theorem legal_illegalOperation (h : LegalState s) {rec : OpRecord} (hx : illegalOperation rec s = .next u) :
    LegalState u := by
  rcases illegalOperation_cases hx with ⟨r, hf, rfl⟩ | ⟨-, rfl⟩
  · exact legal_repeat h hf
  · exact legal_takeFault h nofun fun hd => absurd rfl hd

/-- Settles O5: each way a step can go keeps the invariant. -/
theorem everyStepKeepsTheInvariant : Obligations.EveryStepKeepsTheInvariant := by
  intro s t hs hstep
  rcases step_cases hstep with rfl | ⟨rec, rest, -, ⟨i, -, hx⟩ | hx⟩
  · exact hs
  · exact legal_exec (legal_withPending hs rest) hx
  · exact legal_illegalOperation (legal_withPending hs rest) hx

/-- Settles O6: neither an instruction nor an illegal opcode writes the configuration. -/
theorem noStepWritesTheConfiguration : Obligations.NoStepWritesTheConfiguration := by
  intro s t hstep
  rcases step_cases hstep with rfl | ⟨rec, rest, -, ⟨i, -, hx⟩ | hx⟩
  · rfl
  · exact (exec_cfg hx :)
  · rcases illegalOperation_cases hx with ⟨r, -, rfl⟩ | ⟨-, rfl⟩ <;> rfl

/-- Settles O44: the only effect on the mode and the mask is VRENABLE's, which turns the mode on. -/
theorem noStepClearsVersionRolling : Obligations.NoStepClearsVersionRolling := by
  refine ⟨fun s u hstep hon => ?_, fun s u i hx hne => ?_⟩
  · rcases step_cases hstep with rfl | ⟨rec, rest, -, ⟨i, -, hx⟩ | hx⟩
    · exact hon
    · rcases exec_rolling_cases hx with ⟨hv, -⟩ | ⟨m, -, hv⟩
      · exact hv.trans hon
      · exact hv
    · rcases illegalOperation_cases hx with ⟨r, -, rfl⟩ | ⟨-, rfl⟩ <;> exact hon
  · rcases exec_rolling_cases hx with ⟨hv, hm⟩ | ⟨m, hi, -⟩
    · exact absurd hne (by simp [hv, hm])
    · exact ⟨m, hi⟩

/-! ## Write sets -/

/-- Every PLL of `t` is the PLL of `s` in what the write set of `i` does not name (R39). -/
def BankFrame (i : Instr) (s t : State) : Prop :=
  ∀ k q, s.plls[k]? = some q → ∃ q', t.plls[k]? = some q' ∧
    q'.param &&& ~~~(paramBitsWritten i k) = q.param &&& ~~~(paramBitsWritten i k) ∧
    ∀ tap : Tap, outDivWritten i k tap = false → q'.od[tap] = q.od[tap]

/-- A bank whose PLL `p` alone is changed, and inside the write set, is framed. -/
theorem bankFrame_modify {p : Nat} {f : Pll → Pll} (ht : t.plls = s.plls.modify p f)
    (hw : ∀ q, s.plls[p]? = some q →
      (f q).param &&& ~~~(paramBitsWritten i p) = q.param &&& ~~~(paramBitsWritten i p) ∧
      ∀ tap : Tap, outDivWritten i p tap = false → (f q).od[tap] = q.od[tap]) : BankFrame i s t := by
  intro k q hq
  by_cases hk : p = k
  · subst k
    exact ⟨f q, by simp [ht, hq], hw q hq⟩
  · exact ⟨q, by simp [ht, hk, hq], rfl, fun _ _ => rfl⟩

/-- A field write changes only the bits of a mask that holds its field. -/
theorem setField_and_not (w : U32) {lo n : Nat} (v : BitVec n) {m : U32}
    (hm : ∀ j < lo + n, lo ≤ j → m.getLsbD j = true) : setField w lo v &&& ~~~m = w &&& ~~~m := by
  apply BitVec.eq_of_getLsbD_eq
  intro j hj
  simp only [BitVec.getLsbD_and, getLsbD_setField _ _ _ _ hj]
  split
  · rename_i hin
    simp [hm j hin.2 hin.1]
  · rfl

/-- A field write to the PLL at `p` is framed by a write set that holds the field. -/
theorem bankFrame_setField {p lo n : Nat} {q : Pll} (v : BitVec n) (hq : s.plls[p]? = some q)
    (hm : ∀ j < lo + n, lo ≤ j → (paramBitsWritten i p).getLsbD j = true) :
    BankFrame i s (setParam s p (setField q.param lo v)) :=
  bankFrame_modify rfl fun a ha => by
    obtain rfl : q = a := Option.some.inj (hq.symm.trans ha)
    exact ⟨setField_and_not q.param v hm, fun _ _ => rfl⟩

/-- A write of the whole word of the PLL at `p` is framed by a write set that holds all of it. -/
theorem bankFrame_setParam {p : Nat} (w : U32) (hm : paramBitsWritten i p = 0xFFFFFFFF) :
    BankFrame i s (setParam s p w) :=
  bankFrame_modify rfl fun a _ => by simp [hm]

/-- What an instruction writes in the bank is inside its write set (R39). -/
theorem effect_bankFrame (h : Effect i s t) : BankFrame i s t := by
  cases h with
  | nothing | rolling => exact fun k q hq => ⟨q, hq, rfl, fun _ _ => rfl⟩
  | locked b hi hq | enabled b hi hq =>
    obtain rfl | rfl := hi <;> exact bankFrame_setField _ hq (by simp only [paramBitsWritten, if_pos]; decide)
  | ref hi hq | fb hi hq | post1 hi hq | post2 hi hq =>
    subst hi
    exact bankFrame_setField _ hq (by simp only [paramBitsWritten, if_pos]; decide)
  | searched hi hq =>
    subst hi
    exact bankFrame_setParam _ (if_pos rfl)
  | ramped hi =>
    subst hi
    exact bankFrame_setParam _ rfl
  | @outDiv p b q v hi hq hb hv =>
    subst hi
    refine bankFrame_modify rfl fun a _ => ⟨rfl, fun tap htap => ?_⟩
    have hne : b.toNat ≠ tap.val := fun e => by simp [outDivWritten, e] at htap
    simp [hne]

theorem exec_bankFrame (h : exec i s = .next u) : BankFrame i s u := by
  obtain ⟨t, he, hu⟩ := exec_eq_effect_but_port h
  have hplls : u.plls = t.plls := by rw [hu]
  simpa only [BankFrame, hplls] using effect_bankFrame he

/-- Settles O32: the frame of each effect is the frame of its instruction. -/
theorem nothingOutsideTheWriteSetChanges : Obligations.NothingOutsideTheWriteSetChanges := by
  intro i s u hx
  obtain ⟨t, he, hu⟩ := exec_eq_effect_but_port hx
  have hplls : u.plls = t.plls := by rw [hu]
  refine ⟨exec_cfg hx, ?_, ?_, fun hi => ?_, exec_bankFrame hx, fun hr => ?_⟩
  · rw [hu, ← effect_pending he]
  · rw [hplls, effect_plls_length he]
  · rcases exec_rolling_cases hx with h | ⟨m, h, -⟩
    · exact h
    · exact absurd h (hi m)
  · rwa [effect_of_readOnly he hr] at hu

/-! ## The words of the search -/

/-- Two words that agree outside a mask have the same field where the mask has no bit. -/
theorem bitsOf_eq_of_masked {w w' m : U32} (h : w &&& ~~~m = w' &&& ~~~m) {hi lo : Nat} (hhi : hi < 32) (hlo : lo ≤ hi)
    (hm : ∀ j < hi + 1, lo ≤ j → m.getLsbD j = false) : bitsOf w hi lo = bitsOf w' hi lo := by
  unfold bitsOf
  rw [← toNat_field, ← toNat_field]
  congr 1
  apply BitVec.eq_of_getLsbD_eq
  intro j hj
  have hbit := congrArg (fun x : U32 => x.getLsbD (lo + j)) h
  have hb := hm (lo + j) (by omega) (by omega)
  simp only [BitVec.getLsbD_and, BitVec.getLsbD_not, hb, Bool.not_false, Bool.and_true,
    decide_eq_true (show lo + j < 32 by omega)] at hbit
  rw [BitVec.getLsbD_extractLsb', BitVec.getLsbD_extractLsb', hbit]

/-- The write sets of all but SETFREQ and RAMP hold none of the bits 29 to 24 (R28, R29). -/
theorem paramBitsWritten_high (hs : ∀ p t f tol, i ≠ .pllSetfreq p t f tol) (hr : ∀ f, i ≠ .chipRamp f) (k : Nat) :
    ∀ j < 30, 24 ≤ j → (paramBitsWritten i k).getLsbD j = false := by
  cases i with
  | pllSetfreq p t f tol => exact absurd rfl (hs p t f tol)
  | chipRamp f => exact absurd rfl (hr f)
  | pllLock | pllUnlock | pllEnable | pllDisable | pllSetrefdiv | pllSetfbdiv | pllSetpost1 | pllSetpost2 =>
    rw [paramBitsWritten]
    split <;> decide
  | _ => exact fun _ _ _ => BitVec.getLsbD_zero

/-- The instructions that write a search's word into PLL `k`: SETFREQ on it, and RAMP on the hash PLL. -/
def WritesSearchWord (i : Instr) (k : Nat) : Prop :=
  (∃ p t f tol, i = .pllSetfreq p t f tol ∧ p.toNat = k) ∨ ((∃ f, i = .chipRamp f) ∧ k = 0)

/-- A ramp's loop that ends with a result has written the word of its last search (R163). -/
theorem rampLoop_done {target tol : Rat} {room : Nat} {cur : Rat} {long : Bool} {steps : List RampStep} {r : Result}
    (h : rampLoop target tol room cur long steps s = .done r t) :
    ∃ g d, search g tol = some d ∧ t = setParam s 0 (pack d) := by
  induction room generalizing cur long steps s with
  | zero => cases h
  | succ room ih =>
    rw [rampLoop] at h
    cases hd : search (min (cur + Config.rampStep) target) tol with
    | none => simp [hd] at h
    | some d =>
      simp only [hd] at h
      split at h
      · cases h
        exact ⟨_, d, hd, rfl⟩
      · obtain ⟨g, d', hd', rfl⟩ := ih h
        exact ⟨g, d', hd', setParam_setParam s 0 _ _⟩

/-- SETFREQ that ends with a result has written the word of its search (R110). -/
theorem pllSetfreqOp_done {p b : U8} {f tol : Rat} {r : Result} (h : pllSetfreqOp p b f tol s = .done r t) :
    ∃ d, search f tol = some d ∧ t = setParam s p.toNat (pack d) := by
  simp only [pllSetfreqOp, withPll, withTap] at h
  split at h
  · cases h
  · split at h
    · cases hd : search f tol with
      | none => simp [hd] at h
      | some d =>
        simp only [hd] at h
        cases h
        exact ⟨d, rfl, rfl⟩
    · cases h

/-- RAMP that ends with a result has written the word of a search (R163). -/
theorem chipRampOp_done {f : Rat} {r : Result} (h : chipRampOp f s = .done r t) :
    ∃ g d, search g s.cfg.rampTol = some d ∧ t = setParam s 0 (pack d) := by
  rcases withHashFrequency_cases s _ with ⟨-, e⟩ | ⟨start, -, e⟩
  · cases e.symm.trans h
  · exact rampLoop_done (e.symm.trans h)

/-- SETFREQ and RAMP that end with a result have written the word of a search. -/
theorem searchWord_of_done {k : Nat} {r : Result} (hi : WritesSearchWord i k) (h : opOf i s = .done r t) :
    ∃ g tol d, search g tol = some d ∧ t = setParam s k (pack d) := by
  rcases hi with ⟨p, b, f, tol, rfl, rfl⟩ | ⟨⟨f, rfl⟩, rfl⟩
  · obtain ⟨d, hd, ht⟩ := pllSetfreqOp_done h
    exact ⟨f, tol, d, hd, ht⟩
  · obtain ⟨g, d, hd, ht⟩ := chipRampOp_done h
    exact ⟨g, _, d, hd, ht⟩

/-- The effect of SETFREQ and RAMP is nothing or the word of a search. -/
theorem searchWord_of_effect {k : Nat} (hi : WritesSearchWord i k) (he : Effect i s t) :
    t = s ∨ ∃ g tol d, search g tol = some d ∧ t = setParam s k (pack d) := by
  cases he with
  | nothing => exact .inl rfl
  | @searched p b q f tol d h hq hb hd =>
    subst h
    obtain rfl : p.toNat = k := by simpa [WritesSearchWord] using hi
    exact .inr ⟨f, tol, d, hd, rfl⟩
  | @ramped f g d h hd =>
    subst h
    obtain rfl : k = 0 := by simpa [WritesSearchWord] using hi
    exact .inr ⟨g, s.cfg.rampTol, d, hd, rfl⟩
  | locked _ h | enabled _ h => obtain rfl | rfl := h <;> simp [WritesSearchWord] at hi
  | ref h | fb h | post1 h | post2 h | outDiv h | rolling h =>
    subst h
    simp [WritesSearchWord] at hi

/-- SETFREQ and RAMP either fault with the bank as it was or leave the word of a search in their PLL. -/
theorem exec_searchWord {k : Nat} (hi : WritesSearchWord i k) (hx : exec i s = .next u) :
    (u.plls = s.plls ∧ u.fault ≠ none) ∨ ∃ g tol d, search g tol = some d ∧ u.plls = (setParam s k (pack d)).plls := by
  have he := opOf_effect i s
  rcases exec_cases hx with ⟨r, hf, rfl⟩ | ⟨-, r, t, ho, rfl⟩ | ⟨-, c, d, t, ho, rfl⟩
  · exact .inl ⟨rfl, by simp [hf]⟩
  · obtain ⟨g, tol, d, hd, rfl⟩ := searchWord_of_done hi ho
    exact .inr ⟨g, tol, d, hd, rfl⟩
  · rw [ho] at he
    rcases searchWord_of_effect hi he with rfl | ⟨g, tol, d, hd, rfl⟩
    · exact .inl ⟨rfl, nofun⟩
    · exact .inr ⟨g, tol, d, hd, rfl⟩

/-- A search's word has the VCO range bit of its own dividers and zero reserved bits (R28, R29, R108). -/
theorem vco_and_reserved_of_search {f tol : Rat} {d : Dividers} (h : search f tol = some d) :
    bitsOf (pack d) 29 29 = 0 ∧ bitsOf (pack d) 27 24 = 0 ∧
      (bitsOf (pack d) 28 28 = 1 ↔ (2400 : Rat) ≤ bitsOf (pack d) 23 16 * 25 / bitsOf (pack d) 15 8) := by
  obtain ⟨htop, hfb, href, -, -⟩ := fields_of_search h
  obtain ⟨-, -, -, -, hlo, -⟩ := search_bounds h
  have hfb' : ((d.fb.toNat : Nat) : Rat) = d.fb := by exact_mod_cast Int.toNat_of_nonneg (by omega : 0 ≤ d.fb)
  rw [hfb, href, hfb']
  simp only [bitsOf] at htop ⊢
  split at htop
  · rename_i hv
    exact ⟨by omega, by omega, iff_of_true (by omega) hv⟩
  · rename_i hv
    exact ⟨by omega, by omega, iff_of_false (by omega) hv⟩

/-- Settles O30: bits 29 to 24 are in no other write set, and a word of the search has its own. -/
theorem vcoAndReservedBitsAreTheSearchsOwn : Obligations.VcoAndReservedBitsAreTheSearchsOwn := by
  intro i s u k q q' hx hq hq'
  refine ⟨fun hs hr => ?_, fun hi hw => ?_⟩
  · obtain ⟨a, ha, hparam, -⟩ := exec_bankFrame hx k q hq
    obtain rfl : q' = a := Option.some.inj (hq'.symm.trans ha)
    have hm := paramBitsWritten_high hs hr k
    exact ⟨bitsOf_eq_of_masked hparam (by decide) (by decide) fun j hj hlo => hm j (by omega) (by omega),
      bitsOf_eq_of_masked hparam (by decide) (by decide) fun j hj hlo => hm j (by omega) (by omega)⟩
  · rcases exec_searchWord hi hx with ⟨hu, hf⟩ | ⟨g, tol, d, hd, hu⟩
    · obtain rfl : q = q' := Option.some.inj (hq.symm.trans (hu ▸ hq'))
      exact absurd hw (by simp [hf])
    · obtain rfl : { q with param := pack d } = q' := by simpa [hu, hq] using hq'
      exact vco_and_reserved_of_search hd

/-! ## Read sets -/

/-- The response an end of pseudocode gives to the record `rec` (30_encoding.md R77, 60_exceptions.md R200). -/
def answerOf (rec : OpRecord) : OpEnd → Response
  | .done r _ => .result r
  | .raised c d _ => .fault ⟨c, rec, d⟩

/-- A block that has not faulted responds with the answer of the pseudocode. -/
theorem exec_response (hf : s.fault = none) (h : exec i s = .next u) :
    u.response = some (answerOf (encode i) (opOf i s)) := by
  rcases exec_cases h with ⟨r, hr, -⟩ | ⟨-, r, t, ho, rfl⟩ | ⟨-, c, d, t, ho, rfl⟩
  · simp [hf] at hr
  · simp [ho, answerOf]
  · simp [ho, answerOf]

section Answer

variable {s' : State} {rec : OpRecord}

theorem answer_withPll {p : U8} {k k' : Pll → OpEnd} (hn : s'.plls.length = s.plls.length)
    (hk : ∀ q q', s.plls[p.toNat]? = some q → s'.plls[p.toNat]? = some q' →
      answerOf rec (k q) = answerOf rec (k' q')) :
    answerOf rec (withPll s p k) = answerOf rec (withPll s' p k') := by
  rcases withPll_cases s p k with ⟨hp, e⟩ | ⟨q, hq, e⟩
  · rw [e, withPll_of_ge (hn.trans_le hp)]
    rfl
  · have hp : p.toNat < s'.plls.length := hn ▸ (List.getElem?_eq_some_iff.mp hq).1
    have hq' := List.getElem?_eq_getElem hp
    rw [e, withPll_of_some hq']
    exact hk q _ hq hq'

theorem answer_withTap {b : U8} {k k' : Tap → OpEnd}
    (hk : ∀ h : b.toNat < 4, answerOf rec (k ⟨b.toNat, h⟩) = answerOf rec (k' ⟨b.toNat, h⟩)) :
    answerOf rec (withTap s b k) = answerOf rec (withTap s' b k') := by
  rcases withTap_cases s b k with ⟨hb, e⟩ | ⟨hb, e⟩
  · rw [e, withTap_of_ge hb]
    rfl
  · rw [e, withTap_of_lt hb]
    exact hk hb

theorem answer_withValue {v : U32} {lo hi : Nat} {k k' : OpEnd} (hk : answerOf rec k = answerOf rec k') :
    answerOf rec (withValue s v lo hi k) = answerOf rec (withValue s' v lo hi k') := by
  by_cases h : lo ≤ v.toNat ∧ v.toNat ≤ hi
  · rw [withValue_of_in h, withValue_of_in h, hk]
  · rw [withValue_of_out h, withValue_of_out h]
    rfl

theorem answer_withHashFrequency {k k' : Rat → OpEnd} (hh : hashFrequency s = hashFrequency s')
    (hk : ∀ f, answerOf rec (k f) = answerOf rec (k' f)) :
    answerOf rec (withHashFrequency s k) = answerOf rec (withHashFrequency s' k') := by
  unfold withHashFrequency
  rw [hh]
  cases hashFrequency s' with
  | none => rfl
  | some f => exact hk f

/-- The ramp's loop answers alike whatever the state it writes (R163). -/
theorem answer_rampLoop (target tol : Rat) (room : Nat) (cur : Rat) (long : Bool) (steps : List RampStep)
    (s s' : State) : answerOf rec (rampLoop target tol room cur long steps s) =
      answerOf rec (rampLoop target tol room cur long steps s') := by
  induction room generalizing cur long steps s s' with
  | zero => rfl
  | succ room ih =>
    rw [rampLoop, rampLoop]
    cases search (min (cur + Config.rampStep) target) tol with
    | none => rfl
    | some d =>
      dsimp only
      split
      · rfl
      · exact ih _ _ _ _ _

/-- A field below bit 24 is a field of the low 24 bits. -/
theorem bitsOf_of_low (w : U32) {hi lo : Nat} (hhi : hi ≤ 23) (hlo : lo ≤ hi) :
    bitsOf w hi lo = bitsOf w 23 0 / 2 ^ lo % 2 ^ (hi - lo + 1) := by
  have hpow : 2 ^ 24 = 2 ^ lo * 2 ^ (24 - lo) := by rw [← Nat.pow_add, show lo + (24 - lo) = 24 by omega]
  have hdvd : 2 ^ (hi - lo + 1) ∣ 2 ^ (24 - lo) := Nat.pow_dvd_pow 2 (by omega)
  rw [bitsOf, bitsOf, Nat.pow_zero, Nat.div_one, hpow, Nat.mod_mul_right_div_self, Nat.mod_mod_of_dvd _ hdvd]

/-- Two words with the same low 24 bits have the same pre-divider frequency and reference divider. -/
theorem preFreqOf_and_ref_of_low {w w' : U32} (h : bitsOf w 23 0 = bitsOf w' 23 0) :
    preFreqOf w = preFreqOf w' ∧ bitsOf w 15 8 = bitsOf w' 15 8 := by
  have e {hi lo : Nat} (hhi : hi ≤ 23) (hlo : lo ≤ hi) : bitsOf w hi lo = bitsOf w' hi lo := by
    rw [bitsOf_of_low w hhi hlo, bitsOf_of_low w' hhi hlo, h]
  have href : bitsOf w 15 8 = bitsOf w' 15 8 := e (by decide) (by decide)
  refine ⟨?_, href⟩
  rw [preFreqOf, preFreqOf, href, e (hi := 23) (lo := 16) (by decide) (by decide),
    e (hi := 7) (lo := 4) (by decide) (by decide), e (hi := 3) (lo := 0) (by decide) (by decide)]

/-- A tap frequency reads the dividers of the word and of its tap only (R101). -/
theorem tapFreq_congr {q q' : Pll} {tap : Tap} (hw : bitsOf q.param 23 0 = bitsOf q'.param 23 0)
    (hod : q.od[tap] = q'.od[tap]) : tapFreq q tap = tapFreq q' tap := by
  obtain ⟨hpre, href⟩ := preFreqOf_and_ref_of_low hw
  by_cases h0 : bitsOf q.param 15 8 = 0
  · rw [tapFreq_of_ref_zero q tap h0, tapFreq_of_ref_zero q' tap (href ▸ h0)]
  · rw [tapFreq_of_ref q tap h0, tapFreq_of_ref q' tap (href ▸ h0), hpre, hod]

/-- Two states that agree on a tap's dividers have its frequency in common. -/
theorem tapFreq_of_sameTap {k : Nat} {tap : Tap} {q q' : Pll} (h : sameTap s s' k tap) (hq : s.plls[k]? = some q)
    (hq' : s'.plls[k]? = some q') : tapFreq q tap = tapFreq q' tap := by
  simp only [sameTap, hq, hq', Option.map_some, Option.some.injEq, Prod.mk.injEq] at h
  obtain ⟨hw, hod⟩ := h
  exact tapFreq_congr hw (by simpa using hod)

/-- Two states that agree on the hash tap's dividers have the hash frequency in common (R162). -/
theorem hashFrequency_of_sameTap (h : sameTap s s' 0 0) : hashFrequency s = hashFrequency s' := by
  unfold hashFrequency Config.hashPll Config.hashTap
  cases hq : s.plls[0]? with
  | none =>
    have hq' : s'.plls[0]? = none := by simpa [sameTap, hq] using h.symm
    rw [hq']
  | some q =>
    obtain ⟨q', hq'⟩ : ∃ q', s'.plls[0]? = some q' := by
      cases hq' : s'.plls[0]? with
      | none => simp [sameTap, hq, hq'] at h
      | some q' => exact ⟨q', rfl⟩
    rw [hq']
    exact tapFreq_of_sameTap (tap := 0) h hq hq'

/-- The pseudocode of an instruction answers alike in two states that agree on what it reads (R39). -/
theorem answer_of_sameReads (hc : s'.cfg = s.cfg) (hn : s'.plls.length = s.plls.length) (hs : sameReads i s s') :
    answerOf rec (opOf i s) = answerOf rec (opOf i s') := by
  cases i with
  | pllFreq p b =>
    refine answer_withPll hn fun q q' hq hq' => answer_withTap fun hb => ?_
    rw [tapFreq_of_sameTap (tap := ⟨b.toNat, hb⟩) hs hq hq']
    cases tapFreq q' ⟨b.toNat, hb⟩ <;> rfl
  | pllParam p =>
    refine answer_withPll hn fun q q' hq hq' => ?_
    obtain hw : q.param = q'.param := by simpa [sameReads, hq, hq'] using hs
    rw [hw]
    rfl
  | pllSetfreq p b f tol =>
    refine answer_withPll hn fun q q' hq hq' => answer_withTap fun hb => ?_
    cases search f tol <;> rfl
  | pllLock p | pllUnlock p | pllEnable p | pllDisable p => exact answer_withPll hn fun _ _ _ _ => rfl
  | pllSetoutdiv p b v => exact answer_withPll hn fun _ _ _ _ => answer_withTap fun _ => answer_withValue rfl
  | pllSetrefdiv p v | pllSetfbdiv p v | pllSetpost1 p v | pllSetpost2 p v =>
    exact answer_withPll hn fun _ _ _ _ => answer_withValue rfl
  | nonceCoreid n => simp only [opOf, nonceCoreidOp, hc, answerOf]
  | nonceScid n =>
    simp only [opOf, nonceScidOp, smallCoreMask, hc, show s.vrEn = s'.vrEn from hs]
    split <;> rfl
  | nonceScidv ver =>
    obtain ⟨hv, hm⟩ := hs
    simp only [opOf, nonceScidvOp, smallCoreMask, hc, hv, hm]
    split
    · rfl
    · split <;> rfl
  | nonceChipaddr n =>
    simp only [opOf, nonceChipaddrOp, hc, show s.vrEn = s'.vrEn from hs]
    split <;> rfl
  | nonceRolldur =>
    obtain ⟨hv, hm, htap⟩ := hs
    refine answer_withHashFrequency (hashFrequency_of_sameTap htap) fun f => ?_
    simp only [hc, hv, hm]
    split
    · rfl
    · split
      · split <;> rfl
      · rfl
  | chipVrenable m =>
    simp only [opOf, chipVrenableOp, hc]
    split
    · rfl
    · split <;> rfl
  | chipHashrate =>
    refine answer_withHashFrequency (hashFrequency_of_sameTap hs) fun f => ?_
    simp only [hc, answerOf]
  | chipRamp f =>
    refine answer_withHashFrequency (hashFrequency_of_sameTap hs) fun start => ?_
    rw [hc]
    exact answer_rampLoop _ _ _ _ _ _ _ _

end Answer

/-- Settles O33: the pseudocode's answer is the response. -/
theorem answersDependOnTheReadSetOnly : Obligations.AnswersDependOnTheReadSetOnly := by
  intro i s s' u u' hf hf' hc hn hs hx hx'
  rw [exec_response hf hx, exec_response hf' hx', answer_of_sameReads hc hn hs]

/-! ## The flag setters -/

/-- The instructions that write `locked` or `enabled` (R26, R27). -/
def FlagSetter (j : Instr) : Prop :=
  ∃ p, j = .pllLock p ∨ j = .pllUnlock p ∨ j = .pllEnable p ∨ j = .pllDisable p

/-- The write set of a flag setter holds no divider. -/
theorem flagSetter_writeSet {j : Instr} (hj : FlagSetter j) (k : Nat) :
    (∀ b < 24, (paramBitsWritten j k).getLsbD b = false) ∧ ∀ tap, outDivWritten j k tap = false := by
  obtain ⟨p, rfl | rfl | rfl | rfl⟩ := hj <;> exact ⟨by rw [paramBitsWritten]; split <;> decide, fun _ => rfl⟩

/-- A flag setter leaves the dividers of every tap. -/
theorem sameTap_of_flagSetter {j : Instr} (hj : FlagSetter j) (hx : exec j s = .next u) (k tap : Nat) :
    sameTap s u k tap := by
  obtain ⟨-, -, hlen, -, hbank, -⟩ := nothingOutsideTheWriteSetChanges j s u hx
  obtain ⟨hbits, hods⟩ := flagSetter_writeSet hj k
  cases hq : s.plls[k]? with
  | none =>
    have hu : u.plls[k]? = none := List.getElem?_eq_none (hlen.trans_le (List.getElem?_eq_none_iff.mp hq))
    rw [sameTap, hq, hu]
  | some q =>
    obtain ⟨q', hu, hw, hod⟩ := hbank k q hq
    have hods' : q'.od = q.od := Vector.ext fun n hn => hod ⟨n, hn⟩ (hods _)
    have hlow : bitsOf q'.param 23 0 = bitsOf q.param 23 0 :=
      bitsOf_eq_of_masked hw (by decide) (by decide) fun b hb _ => hbits b hb
    rw [sameTap, hq, hu, Option.map_some, Option.map_some, hods', hlow]

/-- Settles O29: a flag setter leaves all that PLL.FREQ, HASHRATE and ROLLDUR read. -/
theorem flagSettersMoveNoFrequency : Obligations.FlagSettersMoveNoFrequency := by
  intro j i p s u hj hi hf hx hf'
  obtain ⟨v, hv⟩ := exec_next i s
  obtain ⟨w, hw⟩ := exec_next i u
  have htap := sameTap_of_flagSetter ⟨p, hj⟩ hx
  obtain ⟨hc, -, hn, hroll, -, -⟩ := nothingOutsideTheWriteSetChanges j s u hx
  obtain ⟨hen, hmask⟩ := hroll (by rintro m rfl; simp at hj)
  have hreads : sameReads i s u := by
    obtain ⟨k, b, rfl⟩ | rfl | rfl := hi
    · exact htap _ _
    · exact htap 0 0
    · exact ⟨hen.symm, hmask.symm, htap 0 0⟩
  exact ⟨v, w, hv, hw, answersDependOnTheReadSetOnly i s u v w hf hf' hc hn hreads hv hw⟩

/-! ## Reset -/

/-- Settles O1: the legality of the configured PLLs, read back as numbers. -/
theorem resetGivesEveryPieceItsValue : Obligations.ResetGivesEveryPieceItsValue :=
  ⟨rfl, fun _ => ⟨⟨rfl, rfl, rfl, rfl⟩, fun hc q hq => (pllLegal_iff q).mp (pllLegal_of_wellFormed hc hq)⟩⟩

/-- A single bit of a word as a number. -/
theorem bitsOf_bit {w : U32} {n : Nat} (h : w.getLsbD n = true) : bitsOf w n n = 1 := by
  have hbit : w.toNat.testBit n = true := h
  rw [Nat.testBit_eq_decide_div_mod_eq, decide_eq_true_eq] at hbit
  simpa [bitsOf] using hbit

/-- The UART PLL of an admitted configuration exists and is enabled at reset (R36). -/
theorem exists_uartPll {c : Config} (h : c.wellFormed = true) :
    ∃ q, c.pllDefaults[c.uartPll]? = some q ∧ q.param.getLsbD 30 = true := by
  obtain ⟨-, -, -, hu, -⟩ := (wellFormed_iff c).mp h
  simpa only [Config.uartDefault, decide_eq_true_eq, Option.map_eq_some_iff] using hu

/-- A defined tap frequency is the pre-divider frequency over the output divider (R101). -/
theorem eq_of_tapFreq_eq_some {q : Pll} {tap : Tap} {f : Rat} (h : tapFreq q tap = some f) :
    preFreqOf q.param / ((q.od[tap]).toNat + 1) = f := by
  by_cases h0 : bitsOf q.param 15 8 = 0
  · rw [tapFreq_of_ref_zero q tap h0] at h
    cases h
  · rw [tapFreq_of_ref q tap h0] at h
    exact Option.some.inj h

/-- Settles O3: the two constraints of an admitted configuration on its reset values. -/
theorem resetHashClockIs50MHzAndUartPllIsEnabled : Obligations.ResetHashClockIs50MHzAndUartPllIsEnabled := by
  refine ⟨by decide +kernel, fun c hc => ⟨?_, ?_⟩⟩
  · obtain ⟨q, hq, hf⟩ := exists_hashPll hc
    exact ⟨q, hq, eq_of_tapFreq_eq_some hf⟩
  · obtain ⟨q, hq, hb⟩ := exists_uartPll hc
    exact ⟨q, hq, bitsOf_bit hb⟩

/-- The reset state of an admitted configuration has the invariant. -/
theorem legal_resetOf {c : Config} (hc : c.wellFormed = true) : LegalState (State.resetOf c) where
  config := hc
  bank := rfl
  legal _ hq := pllLegal_of_wellFormed hc hq
  rolling := nofun
  answered := nofun
  noDivideByZero := nofun
  detailOfRamp := nofun

/-- Settles O4: the configuration of the test vectors is admitted. -/
theorem resetMeetsTheInvariant : Obligations.ResetMeetsTheInvariant :=
  ⟨legal_resetOf (by decide +kernel), fun _ => legal_resetOf⟩

/-- Settles O8: the decoder's answer selects the branch of the step. -/
theorem stepRunsTheDecodedOperation : Obligations.StepRunsTheDecodedOperation :=
  ⟨fun s rec rest i hp hd => by rw [step_of_pending hp, hd], fun _ => step_of_nil⟩

end Sys2Proof.Proofs
end

section
/-!
PROOFS of the statements about memory: reading has no side effect, and the order of the bytes of a parameter word
(20_memory.md).
-/
namespace Sys2Proof.Proofs

open Sys2Proof.Machine Sys2Proof.Laws

variable {i : Instr} {s u : State}

/-! ## Read-only operations -/

/-- Everything a read-only operation can do to a block that has not faulted: its result as the response, or a fault
taken, and no other write (10_state.md R39). -/
theorem exec_readOnly_cases (hr : readOnly i = true) (hf : s.fault = none) (hx : exec i s = .next u) :
    (∃ r, u = respond s (.result r)) ∨ ∃ f, u = takeFault s f := by
  rcases exec_effect hx with ⟨f, hf', -⟩ | ⟨-, t, he, hu⟩
  · rw [hf] at hf'
    cases hf'
  · obtain rfl := effect_of_readOnly he hr
    rcases hu with ⟨r, rfl⟩ | ⟨c, d, rfl⟩
    · exact .inl ⟨r, rfl⟩
    · exact .inr ⟨_, rfl⟩

/-- A state agrees with itself on every read set. -/
theorem sameReads_refl (i : Instr) (s : State) : sameReads i s s := by
  cases i with
  | pllFreq | pllParam | nonceScid | nonceChipaddr | chipHashrate | chipRamp => exact rfl
  | nonceScidv => exact ⟨rfl, rfl⟩
  | nonceRolldur => exact ⟨rfl, rfl, rfl⟩
  | _ => trivial

/-- The response port is in no read set. -/
theorem sameReads_respond (i : Instr) (s : State) (r : Response) : sameReads i s (respond s r) := sameReads_refl i s

/-- An instruction answers the same whatever stands on the response port. -/
theorem exec_response_of_respond {v : State} {r : Response} (hf : s.fault = none) (hx : exec i s = .next u)
    (hv : exec i (respond s r) = .next v) : v.response = u.response :=
  (answersDependOnTheReadSetOnly i s (respond s r) u v hf hf rfl rfl (sameReads_respond i s r) hx hv).symm

/-- A read-only operation that gave a result gives it again, and writes nothing else. -/
theorem exec_repeat_of_result {r : Result} (hr : readOnly i = true) (hf : s.fault = none)
    (hx : exec i s = .next (respond s (.result r))) :
    exec i (respond s (.result r)) = .next (respond s (.result r)) := by
  obtain ⟨v, hv⟩ := exec_next i (respond s (.result r))
  have hres : v.response = some (.result r) := exec_response_of_respond hf hx hv
  rcases exec_readOnly_cases (s := respond s (.result r)) hr hf hv with ⟨r', rfl⟩ | ⟨f, rfl⟩
  · obtain rfl : r' = r := by simpa using hres
    exact hv
  · simp at hres

/-- Settles O34: a result is given again because the response is in no read set, a fault because its record is kept. -/
theorem readingHasNoSideEffect : Obligations.ReadingHasNoSideEffect := by
  intro i s u hr hf hx
  rcases exec_readOnly_cases hr hf hx with ⟨r, rfl⟩ | ⟨f, rfl⟩
  · exact ⟨exec_repeat_of_result hr hf hx, fun _ => rfl⟩
  · exact ⟨exec_of_fault rfl, nofun⟩

/-! ## Byte order -/

/-- Settles O54: each byte is a field of the word. -/
theorem parameterWordBytesMostSignificantFirst : Obligations.ParameterWordBytesMostSignificantFirst := by
  intro w
  have byte (lo : Nat) : (w.extractLsb' lo 8).toNat = bitsOf w (lo + 7) lo := by
    rw [toNat_field, bitsOf, Nat.add_sub_cancel_left]
  simp only [wordBytes, List.map_cons, List.map_nil, byte]

end Sys2Proof.Proofs
end

section
/-!
PROOFS of the statements about the encoding: what the decoder makes of a record, and that the assembler reads what it
prints and expands `pll.configure` into what the fields say (30_encoding.md).
-/
namespace Sys2Proof.Proofs

open Sys2Proof.Machine Sys2Proof.Laws

/-! ## Operands that have the shape and types of a format -/

@[simp] theorem admits_u8_iff {o : Operand} : OperandKind.u8.admits o = true ↔ ∃ v, o = .u8 v := by
  cases o <;> simp [OperandKind.admits]

@[simp] theorem admits_u32_iff {o : Operand} : OperandKind.u32.admits o = true ↔ ∃ v, o = .u32 v := by
  cases o <;> simp [OperandKind.admits]

@[simp] theorem admits_q_iff {o : Operand} : OperandKind.q.admits o = true ↔ ∃ v, o = .q v := by
  cases o <;> simp [OperandKind.admits]

@[simp] theorem admits_qNonneg_iff {o : Operand} : OperandKind.qNonneg.admits o = true ↔ ∃ v, 0 ≤ v ∧ o = .q v := by
  cases o <;> simp [OperandKind.admits]

@[simp] theorem conforms_nil_iff {ops : List Operand} : conforms [] ops = true ↔ ops = [] := by
  cases ops <;> simp [conforms]

@[simp] theorem conforms_cons_iff {k : OperandKind} {ks : List OperandKind} {ops : List Operand} :
    conforms (k :: ks) ops = true ↔ ∃ o os, k.admits o = true ∧ conforms ks os = true ∧ ops = o :: os := by
  cases ops <;> simp [conforms]

/-- The record of a well-formed instruction has the shape of its opcode's format (R67, R68). -/
theorem recordShape : (i : Instr) → RecordShape.Statement i
  | .pllFreq p t => RecordShape.pllFreq p t
  | .pllParam p => RecordShape.pllParam p
  | .pllSetfreq p t f tol => RecordShape.pllSetfreq p t f tol
  | .pllLock p => RecordShape.pllLock p
  | .pllUnlock p => RecordShape.pllUnlock p
  | .pllEnable p => RecordShape.pllEnable p
  | .pllDisable p => RecordShape.pllDisable p
  | .pllSetoutdiv p t v => RecordShape.pllSetoutdiv p t v
  | .pllSetrefdiv p v => RecordShape.pllSetrefdiv p v
  | .pllSetfbdiv p v => RecordShape.pllSetfbdiv p v
  | .pllSetpost1 p v => RecordShape.pllSetpost1 p v
  | .pllSetpost2 p v => RecordShape.pllSetpost2 p v
  | .nonceCoreid n => RecordShape.nonceCoreid n
  | .nonceScid n => RecordShape.nonceScid n
  | .nonceScidv ver => RecordShape.nonceScidv ver
  | .nonceChipaddr n => RecordShape.nonceChipaddr n
  | .nonceRolldur => RecordShape.nonceRolldur
  | .chipVrenable m => RecordShape.chipVrenable m
  | .chipHashrate => RecordShape.chipHashrate
  | .chipRamp f => RecordShape.chipRamp f

/-- The illegal opcodes are those without a row in the opcode map (R69). -/
theorem formatOf_eq_none_iff {code : U8} : formatOf code = none ↔ ∀ row ∈ opRows, row.code ≠ code := by
  simp [formatOf]

/-- The format of an opcode is that of its row in the opcode map. -/
theorem exists_row_of_formatOf {code : U8} {fmt : Format} (h : formatOf code = some fmt) :
    ∃ row, opRows.find? (·.code = code) = some row ∧ row.format = fmt :=
  Option.map_eq_some_iff.mp h

/-! ## What the decoder makes of a record -/

/-- What the decoder may make of a record, each answer with its reason (R68 to R70). -/
inductive Reading (rec : OpRecord) : Decoded → Prop
  /-- the record of a well-formed instruction -/
  | op {i : Instr} (hw : i.wellFormed = true) (he : rec = encode i) : Reading rec (.op i)
  /-- an opcode without a row in the opcode map -/
  | illegalOpcode (hf : formatOf rec.opcode = none) : Reading rec .illegalOpcode
  /-- operands without the shape and types of the opcode's format -/
  | malformed {fmt : Format} (hf : formatOf rec.opcode = some fmt) (hc : conforms fmt.kinds rec.operands = false) :
      Reading rec .malformed

section Readers

variable {code : U8} {fmt : Format} {ops : List Operand}

theorem reading_readZ {i : Instr} (hf : formatOf code = some .z)
    (hi : i.wellFormed = true ∧ encode i = ⟨code, []⟩) : Reading ⟨code, ops⟩ (readZ ops i) := by
  unfold readZ
  split
  · exact .op hi.1 hi.2.symm
  · exact .malformed hf (by simpa [Format.kinds, ← Bool.not_eq_true])

theorem reading_readP {mk : U8 → Instr} (hf : formatOf code = some .p)
    (hmk : ∀ p, (mk p).wellFormed = true ∧ encode (mk p) = ⟨code, [.u8 p]⟩) :
    Reading ⟨code, ops⟩ (readP ops mk) := by
  unfold readP
  split
  · exact .op (hmk _).1 (hmk _).2.symm
  · exact .malformed hf (by simpa [Format.kinds, ← Bool.not_eq_true])

theorem reading_readPT {mk : U8 → U8 → Instr} (hf : formatOf code = some .pt)
    (hmk : ∀ p t, (mk p t).wellFormed = true ∧ encode (mk p t) = ⟨code, [.u8 p, .u8 t]⟩) :
    Reading ⟨code, ops⟩ (readPT ops mk) := by
  unfold readPT
  split
  · exact .op (hmk _ _).1 (hmk _ _).2.symm
  · exact .malformed hf (by simpa [Format.kinds, ← Bool.not_eq_true])

theorem reading_readPV {mk : U8 → U32 → Instr} (hf : formatOf code = some .pv)
    (hmk : ∀ p v, (mk p v).wellFormed = true ∧ encode (mk p v) = ⟨code, [.u8 p, .u32 v]⟩) :
    Reading ⟨code, ops⟩ (readPV ops mk) := by
  unfold readPV
  split
  · exact .op (hmk _ _).1 (hmk _ _).2.symm
  · exact .malformed hf (by simpa [Format.kinds, ← Bool.not_eq_true])

theorem reading_readPTV {mk : U8 → U8 → U32 → Instr} (hf : formatOf code = some .ptv)
    (hmk : ∀ p t v, (mk p t v).wellFormed = true ∧ encode (mk p t v) = ⟨code, [.u8 p, .u8 t, .u32 v]⟩) :
    Reading ⟨code, ops⟩ (readPTV ops mk) := by
  unfold readPTV
  split
  · exact .op (hmk _ _ _).1 (hmk _ _ _).2.symm
  · exact .malformed hf (by simpa [Format.kinds, ← Bool.not_eq_true])

theorem reading_readPTF {mk : U8 → U8 → Rat → Rat → Instr} (hf : formatOf code = some .ptf)
    (hmk : ∀ p t f tol, (0 ≤ f → (mk p t f tol).wellFormed = true) ∧
      encode (mk p t f tol) = ⟨code, [.u8 p, .u8 t, .q f, .q tol]⟩) :
    Reading ⟨code, ops⟩ (readPTF ops mk) := by
  unfold readPTF
  split
  · split
    · exact .op ((hmk _ _ _ _).1 ‹_›) (hmk _ _ _ _).2.symm
    · exact .malformed hf (by simpa [Format.kinds, ← Bool.not_eq_true] using not_le.mp ‹_›)
  · exact .malformed hf (by simp_all [Format.kinds, ← Bool.not_eq_true])

/-- Formats N, VER and M, which have the one operand type. -/
theorem reading_readW {mk : U32 → Instr} (hf : formatOf code = some fmt) (hk : fmt.kinds = [.u32])
    (hmk : ∀ w, (mk w).wellFormed = true ∧ encode (mk w) = ⟨code, [.u32 w]⟩) :
    Reading ⟨code, ops⟩ (readW ops mk) := by
  unfold readW
  split
  · exact .op (hmk _).1 (hmk _).2.symm
  · exact .malformed hf (by simpa [hk, ← Bool.not_eq_true])

theorem reading_readF {mk : Rat → Instr} (hf : formatOf code = some .f)
    (hmk : ∀ f, (0 ≤ f → (mk f).wellFormed = true) ∧ encode (mk f) = ⟨code, [.q f]⟩) :
    Reading ⟨code, ops⟩ (readF ops mk) := by
  unfold readF
  split
  · split
    · exact .op ((hmk _).1 ‹_›) (hmk _).2.symm
    · exact .malformed hf (by simpa [Format.kinds, ← Bool.not_eq_true] using not_le.mp ‹_›)
  · exact .malformed hf (by simp_all [Format.kinds, ← Bool.not_eq_true])

end Readers

/-- What the decoder makes of a record has its reason: each row of the opcode map reads its own format. -/
theorem reading_decode (rec : OpRecord) : Reading rec (decode rec) := by
  obtain ⟨code, ops⟩ := rec
  unfold decode
  dsimp only
  -- one case a row, in the order of the opcode map, and the illegal opcodes last
  split
  · exact reading_readPT (by decide) fun _ _ => ⟨rfl, rfl⟩
  · exact reading_readP (by decide) fun _ => ⟨rfl, rfl⟩
  · exact reading_readPTF (by decide) fun _ _ _ _ => ⟨decide_eq_true, rfl⟩
  · exact reading_readP (by decide) fun _ => ⟨rfl, rfl⟩
  · exact reading_readP (by decide) fun _ => ⟨rfl, rfl⟩
  · exact reading_readP (by decide) fun _ => ⟨rfl, rfl⟩
  · exact reading_readP (by decide) fun _ => ⟨rfl, rfl⟩
  · exact reading_readPTV (by decide) fun _ _ _ => ⟨rfl, rfl⟩
  · exact reading_readPV (by decide) fun _ _ => ⟨rfl, rfl⟩
  · exact reading_readPV (by decide) fun _ _ => ⟨rfl, rfl⟩
  · exact reading_readPV (by decide) fun _ _ => ⟨rfl, rfl⟩
  · exact reading_readPV (by decide) fun _ _ => ⟨rfl, rfl⟩
  · exact reading_readW (fmt := .n) (by decide) rfl fun _ => ⟨rfl, rfl⟩
  · exact reading_readW (fmt := .n) (by decide) rfl fun _ => ⟨rfl, rfl⟩
  · exact reading_readW (fmt := .ver) (by decide) rfl fun _ => ⟨rfl, rfl⟩
  · exact reading_readW (fmt := .n) (by decide) rfl fun _ => ⟨rfl, rfl⟩
  · exact reading_readZ (by decide) ⟨rfl, rfl⟩
  · exact reading_readW (fmt := .m) (by decide) rfl fun _ => ⟨rfl, rfl⟩
  · exact reading_readZ (by decide) ⟨rfl, rfl⟩
  · exact reading_readF (by decide) fun _ => ⟨decide_eq_true, rfl⟩
  · refine .illegalOpcode (formatOf_eq_none_iff.mpr ?_)
    simp_all [opRows, pllRows, nonceAndChipRows, eq_comm]

/-- The decoder reads the record of a well-formed instruction as that instruction. -/
theorem decode_encode {i : Instr} (h : i.wellFormed = true) : decode (encode i) = .op i := by
  cases i with
  | pllSetfreq p t f tol => exact if_pos (of_decide_eq_true h)
  | chipRamp f => exact if_pos (of_decide_eq_true h)
  | _ => rfl

/-- Settles O14: an operation is read only from its own record, and from that record always. -/
theorem decodeAndEncodeAgree : Obligations.DecodeAndEncodeAgree := by
  intro rec i
  constructor
  · intro h
    have hr := reading_decode rec
    rw [h] at hr
    cases hr with
    | op hw he => exact ⟨hw, he⟩
  · rintro ⟨hw, rfl⟩
    exact decode_encode hw

/-- An opcode without a row in the opcode map is illegal, whatever the operands (R69). -/
theorem decode_of_formatOf_none {rec : OpRecord} (h : formatOf rec.opcode = none) : decode rec = .illegalOpcode := by
  have hr := reading_decode rec
  generalize decode rec = d at hr
  cases hr with
  | op hw he =>
    subst he
    obtain ⟨fmt, hf, -⟩ := recordShape _ hw
    exact absurd h (by simp [hf])
  | illegalOpcode => rfl
  | malformed hf => exact absurd h (by simp [hf])

/-- The illegal ranges of R69 hold no row of the opcode map. -/
theorem formatOf_eq_none_of_range {code : U8} (h : code.toNat ≤ 0x0F ∨ (0x1C ≤ code.toNat ∧ code.toNat ≤ 0x1F) ∨
    (0x25 ≤ code.toNat ∧ code.toNat ≤ 0x2F) ∨ 0x33 ≤ code.toNat) : formatOf code = none := by
  have hrows : ∀ row ∈ opRows, (0x10 ≤ row.code.toNat ∧ row.code.toNat ≤ 0x1B) ∨
      (0x20 ≤ row.code.toNat ∧ row.code.toNat ≤ 0x24) ∨ (0x30 ≤ row.code.toNat ∧ row.code.toNat ≤ 0x32) := by decide
  refine formatOf_eq_none_iff.mpr fun row hrow hcode => ?_
  have := hrows row hrow
  rw [hcode] at this
  omega

/-- What an illegal opcode does to a block that has not faulted (R69). -/
theorem illegalOperation_of_fault_none {s : State} {rec : OpRecord} (hf : s.fault = none) :
    illegalOperation rec s = .next (takeFault s ⟨.illegalOperation, rec, none⟩) := transact_of_raised hf rfl

/-- Settles O9: an opcode in those ranges is illegal, and the step takes IllegalOperation. -/
theorem illegalOpcodeFaultsAndChangesNothingElse : Obligations.IllegalOpcodeFaultsAndChangesNothingElse := by
  intro s rec rest hp hrange hf
  rw [step_of_pending hp, decode_of_formatOf_none (formatOf_eq_none_of_range hrange)]
  exact illegalOperation_of_fault_none hf

/-- Settles O13: the record of an instruction conforms, and of a legal opcode what is no instruction's is malformed. -/
theorem malformedRecordIsRefused : Obligations.MalformedRecordIsRefused := by
  intro s rec rest fmt hp hfmt
  rw [step_of_pending hp]
  have hr := reading_decode rec
  generalize decode rec = d at hr
  cases hr with
  | @op i hw he =>
    subst he
    obtain ⟨fmt', hf', hc⟩ := recordShape i hw
    obtain rfl : fmt = fmt' := Option.some.inj (hfmt.symm.trans hf')
    exact ⟨fun _ => ⟨i, rfl, rfl⟩, fun hn => absurd hc (by simp [hn])⟩
  | illegalOpcode hn => exact absurd hfmt (by simp [hn])
  | @malformed fmt' hf' hc =>
    obtain rfl : fmt = fmt' := Option.some.inj (hfmt.symm.trans hf')
    exact ⟨fun h => absurd h (by simp [hc]), fun _ => rfl⟩

/-- Settles O15: the six records are encodings, and the three opcodes have no row in the opcode map. -/
theorem opcodeMapSampleDecodes : Obligations.OpcodeMapSampleDecodes :=
  ⟨decode_encode (i := .pllFreq 1 2) rfl, decode_encode (i := .pllSetoutdiv 1 2 6) rfl,
    decode_encode (i := .pllSetpost2 0 7) rfl, decode_encode (i := .nonceChipaddr 0x5AA78000) rfl,
    decode_encode (i := .nonceRolldur) rfl, decode_encode (i := .chipVrenable 0x1FFFE000) rfl,
    decode_of_formatOf_none (by decide), decode_of_formatOf_none (by decide), decode_of_formatOf_none (by decide)⟩

/-- Settles O7: an instruction is one transaction, and a transaction answers. -/
theorem everyOperationIsAnswered : Obligations.EveryOperationIsAnswered := by
  intro i s
  rw [exec_eq_transact]
  exact transact_answers (encode i) (opOf i) s

/-! ## The assembler -/

/-- A mnemonic is one run of word characters. -/
theorem asm_word : ∀ row ∈ opRows, row.asm.toList ≠ [] ∧ row.asm.toList.all isWordChar = true := by decide

/-- A mnemonic names its row of the opcode map. -/
theorem find_asm : ∀ row ∈ opRows, opRows.find? (·.asm.toList = row.asm.toList) = some row := by decide

/-- A mnemonic before printed operands is one token before theirs. -/
theorem lex_asm_printOperands {row : OpRow} (h : row ∈ opRows) (ops : List Operand) :
    lex [] (row.asm.toList ++ printOperands ops) = some (.word row.asm.toList :: operandTokens ops) := by
  obtain ⟨hne, hw⟩ := asm_word row h
  rw [lex_word (List.all_eq_true.mp hw), lex_printOperands, List.nil_append, flush, if_neg hne]

/-- A mnemonic with printed operands of its format is read as the record of its row. -/
theorem assemble_print {row : OpRow} {ops : List Operand} (h : row ∈ opRows)
    (hc : conforms row.format.kinds ops = true) :
    assemble (row.asm.toList ++ printOperands ops) = some ⟨row.code, ops⟩ := by
  simp only [assemble, lex_asm_printOperands h, find_asm row h, readOperands_print hc, Option.map_some]

/-- Settles O53: an instruction is printed under the mnemonic of its opcode's row, whose format its operands have. -/
theorem assemblerReadsWhatItPrints : Obligations.AssemblerReadsWhatItPrints := by
  intro i hw
  obtain ⟨fmt, hf, hc⟩ := recordShape i hw
  obtain ⟨row, hrow, rfl⟩ := exists_row_of_formatOf hf
  have hcode : row.code = (encode i).opcode := by simpa using List.find?_some hrow
  simp only [print, hrow]
  rw [assemble_print (List.mem_of_find?_eq_some hrow) hc, hcode]

/-! ## pll.configure -/

/-- In a block that has not faulted, `i` replaces PLL `p` by its image under `f` and answers ok, whatever the state. -/
def Rewrites (p : U8) (i : Instr) (f : Pll → Pll) : Prop :=
  ∀ (s : State) (q : Pll), s.fault = none → s.plls[p.toNat]? = some q → exec i s = .next (s.wrotePll p (f q))

theorem wrotePll_wrotePll (s : State) (p : U8) (q q' : Pll) : (s.wrotePll p q).wrotePll p q' = s.wrotePll p q' := by
  simp [State.wrotePll]

theorem wrotePll_getElem? {s : State} {p : U8} {q : Pll} (hq : s.plls[p.toNat]? = some q) (q' : Pll) :
    (s.wrotePll p q').plls[p.toNat]? = some q' := by
  obtain ⟨hlt, -⟩ := List.getElem?_eq_some_iff.mp hq
  simp [hlt]

/-- Setters of one PLL in order give one state: the PLL rewritten by each in turn. -/
theorem execAll_of_rewrites {p : U8} {is : List Instr} {fs : List (Pll → Pll)} (h : List.Forall₂ (Rewrites p) is fs)
    {s : State} {q : Pll} (hf : s.fault = none) (hq : s.plls[p.toNat]? = some q) (q' : Pll) :
    execAll is (s.wrotePll p q') = .next (s.wrotePll p (fs.foldl (fun a f => f a) q')) := by
  induction h generalizing q' with
  | nil => rfl
  | @cons i f is fs hi _ ih =>
    rw [execAll, hi (s.wrotePll p q') q' hf (wrotePll_getElem? hq q'), wrotePll_wrotePll]
    exact ih (f q')

/-- As `execAll_of_rewrites`, from any state in which the PLL exists. -/
theorem execAll_cons_of_rewrites {p : U8} {i : Instr} {f : Pll → Pll} {is : List Instr} {fs : List (Pll → Pll)}
    (hi : Rewrites p i f) (h : List.Forall₂ (Rewrites p) is fs) {s : State} {q : Pll} (hf : s.fault = none)
    (hq : s.plls[p.toNat]? = some q) :
    execAll (i :: is) s = .next (s.wrotePll p (fs.foldl (fun a f => f a) (f q))) := by
  rw [execAll, hi s q hf hq]
  exact execAll_of_rewrites h hf hq (f q)

/-- `q` with one field of its word replaced. -/
def withField (lo : Nat) {n : Nat} (v : BitVec n) (q : Pll) : Pll := { q with param := setField q.param lo v }

@[simp] theorem withField_param (lo : Nat) {n : Nat} (v : BitVec n) (q : Pll) :
    (withField lo v q).param = setField q.param lo v := rfl

/-- An instruction whose pseudocode writes one field of its PLL rewrites the PLL so. -/
theorem rewrites_of_setParam {p : U8} {i : Instr} {lo n : Nat} {v : BitVec n}
    (h : ∀ (s : State) (q : Pll), s.plls[p.toNat]? = some q →
      opOf i s = .done .ok (setParam s p.toNat (setField q.param lo v))) : Rewrites p i (withField lo v) := by
  intro s q hf hq
  rw [exec_of_done hf (h s q hq), setParam_eq_set hq]
  rfl

theorem rewrites_lock (p : U8) (b : Bool) :
    Rewrites p (if b then .pllLock p else .pllUnlock p) (withField 31 (BitVec.ofBool b)) :=
  rewrites_of_setParam fun _ _ hq => by cases b <;> exact withPll_of_some hq

theorem rewrites_enable (p : U8) (b : Bool) :
    Rewrites p (if b then .pllEnable p else .pllDisable p) (withField 30 (BitVec.ofBool b)) :=
  rewrites_of_setParam fun _ _ hq => by cases b <;> exact withPll_of_some hq

theorem rewrites_fb (p : U8) {v : U32} (hv : v.toNat ≤ 255) : Rewrites p (.pllSetfbdiv p v) (withField 16 (byteOf v)) :=
  rewrites_of_setParam fun _ _ hq => (withPll_of_some hq).trans (withValue_of_in ⟨Nat.zero_le _, hv⟩)

theorem rewrites_ref (p : U8) {v : U32} (hv : 1 ≤ v.toNat ∧ v.toNat ≤ 2) :
    Rewrites p (.pllSetrefdiv p v) (withField 8 (byteOf v)) :=
  rewrites_of_setParam fun _ _ hq => (withPll_of_some hq).trans (withValue_of_in hv)

theorem rewrites_post1 (p : U8) {v : U32} (hv : 1 ≤ v.toNat ∧ v.toNat ≤ 7) :
    Rewrites p (.pllSetpost1 p v) (withField 4 (postNibbleOf v)) :=
  rewrites_of_setParam fun _ _ hq => (withPll_of_some hq).trans (withValue_of_in hv)

theorem rewrites_post2 (p : U8) {v : U32} (hv : 1 ≤ v.toNat ∧ v.toNat ≤ 7) :
    Rewrites p (.pllSetpost2 p v) (withField 0 (postNibbleOf v)) :=
  rewrites_of_setParam fun _ _ hq => (withPll_of_some hq).trans (withValue_of_in hv)

theorem rewrites_outDiv (p : U8) {t : U8} {v : U32} (ht : t.toNat < 4) (hv : v.toNat ≤ 15) :
    Rewrites p (.pllSetoutdiv p t v) fun q => { q with od := q.od.set t.toNat (BitVec.ofNat 8 v.toNat) } := by
  intro s q hf hq
  have hop : opOf (.pllSetoutdiv p t v) s = .done .ok (setOutDiv s p.toNat ⟨t.toNat, ht⟩ (outDivOf v)) :=
    (withPll_of_some hq).trans ((withTap_of_lt ht).trans (withValue_of_in ⟨Nat.zero_le _, hv⟩))
  rw [exec_of_done hf hop, setOutDiv_eq_set hq]
  rfl

/-- A field of a word after a write of that field, by the field's bit numbers. -/
theorem bitsOf_setField_field (w : U32) {hi lo n : Nat} (v : BitVec n) (h : hi < 32) (hl : lo ≤ hi)
    (hn : hi + 1 = lo + n) : bitsOf (setField w lo v) hi lo = v.toNat := by
  obtain rfl : hi = lo + n - 1 := by omega
  exact bitsOf_setField_same w lo v (by omega) (by omega)

/-- Settles O52: the seven setters rewrite the PLL one field each, and no field overlaps another. -/
theorem configureSetsEveryGivenField : Obligations.ConfigureSetsEveryGivenField := by
  intro s p q lock enable fb ref post1 post2 t v ht hf hq hfb href hp1 hp1' hp2 hp2' hv
  have href' : 1 ≤ ref.toNat ∧ ref.toNat ≤ 2 := by rcases href with rfl | rfl <;> decide
  refine ⟨_, execAll_cons_of_rewrites (rewrites_lock p lock) (.cons (rewrites_enable p enable)
    (.cons (rewrites_fb p hfb) (.cons (rewrites_ref p href') (.cons (rewrites_post1 p ⟨hp1, hp1'⟩)
    (.cons (rewrites_post2 p ⟨hp2, hp2'⟩) (.cons (rewrites_outDiv p ht hv) .nil)))))) hf hq, ?_⟩
  simp [bitsOf_setField_field, bitsOf_setField_outside, byteOf_toNat hfb,
    byteOf_toNat (href'.2.trans (by decide)), postNibbleOf_toNat ⟨hp1, hp1'⟩, postNibbleOf_toNat ⟨hp2, hp2'⟩]

end Sys2Proof.Proofs
end

section
/-!
PROOFS of the statements about the PLL operations: what each answers, writes and refuses, and that operations on
different PLLs commute (40_pll.md R100 to R103, R112 to R121).
-/
namespace Sys2Proof.Proofs

open Sys2Proof.Machine Sys2Proof.Laws

variable {i : Instr} {s t u : State} {p : U8} {q : Pll}

/-! ## Operands out of range -/

/-- An instruction whose pseudocode raises a fault having written nothing leaves the state of `faultedBy` (R200). -/
theorem exec_faultedBy {c : FaultCode} {d : Option Rat} (hf : s.fault = none) (h : opOf i s = .raised c d s) :
    exec i s = .next (s.faultedBy i c d) := exec_of_raised hf h

/-- An instruction whose pseudocode ends with a result having written nothing leaves the state of `answered`. -/
theorem exec_answered {r : Result} (hf : s.fault = none) (h : opOf i s = .done r s) :
    exec i s = .next (s.answered r) := exec_of_done hf h

/-- The check of a PLL index raises OperandRange where all that comes after it does. -/
theorem withPll_raises {k : Pll → OpEnd} (h : ∀ q, k q = .raised .operandRange none s) :
    withPll s p k = .raised .operandRange none s := by
  rcases withPll_cases s p k with ⟨-, e⟩ | ⟨q, -, e⟩
  · exact e
  · exact e.trans (h q)

/-- The check of a tap raises OperandRange where all that comes after it does. -/
theorem withTap_raises {b : U8} {k : Tap → OpEnd} (h : ∀ tap, k tap = .raised .operandRange none s) :
    withTap s b k = .raised .operandRange none s := by
  rcases withTap_cases s b k with ⟨-, e⟩ | ⟨hb, e⟩
  · exact e
  · exact e.trans (h _)

/-- A PLL index and a setter value are checked before anything is written (R100, R203). -/
theorem withPll_withValue_raises {v : U32} {lo hi : Nat} {k : Pll → OpEnd}
    (h : s.plls.length ≤ p.toNat ∨ v.toNat < lo ∨ hi < v.toNat) :
    withPll s p (fun q => withValue s v lo hi (k q)) = .raised .operandRange none s := by
  rcases h with hp | hv
  · exact withPll_of_ge hp
  · exact withPll_raises fun q => withValue_of_out (by omega)

/-- A PLL index and a tap are checked before anything is written (R100, R203). -/
theorem withPll_withTap_raises {b : U8} {k : Pll → Tap → OpEnd} (h : s.plls.length ≤ p.toNat ∨ 4 ≤ b.toNat) :
    withPll s p (fun q => withTap s b (k q)) = .raised .operandRange none s := by
  rcases h with hp | hb
  · exact withPll_of_ge hp
  · exact withPll_raises fun q => withTap_of_ge hb

/-! ## PLL.FREQ and PLL.PARAM -/

/-- PLL.FREQ of an existing PLL and tap ends as the tap frequency is defined or not (R101, R102). -/
theorem pllFreq_of_tap {b : U8} (hq : s.plls[p.toNat]? = some q) (hb : b.toNat < 4) :
    opOf (.pllFreq p b) s = match tapFreq q ⟨b.toNat, hb⟩ with
      | none => .raised .divideByZero none s
      | some f => .done (.frequency f) s :=
  (withPll_of_some hq).trans (withTap_of_lt hb)

/-- Settles O16: past its range checks PLL.FREQ answers the tap frequency, which ref 0 leaves undefined. -/
theorem freqReturnsTheTapFrequency : Obligations.FreqReturnsTheTapFrequency := by
  intro s p b hf
  refine ⟨rfl, fun q hb hq href => exec_answered hf ?_, fun q hb hq href => exec_faultedBy hf ?_, fun h =>
    exec_faultedBy hf (withPll_withTap_raises h)⟩
  · rw [pllFreq_of_tap hq hb, tapFreq_of_ref q _ href]
    rfl
  · rw [pllFreq_of_tap hq hb, tapFreq_of_ref_zero q _ href]

/-- Settles O17: past its range check PLL.PARAM answers the word. -/
theorem paramReturnsTheWholeWord : Obligations.ParamReturnsTheWholeWord :=
  fun _ _ hf => ⟨rfl, fun _ hq => exec_answered hf (withPll_of_some hq), fun hp => exec_faultedBy hf (withPll_of_ge hp)⟩

/-! ## The setters -/

/-- A field write as a mask and an or: `m` keeps the other bits, `x` is the field in its place. -/
theorem setField_eq_mask (w m x : U32) (lo : Nat) {n : Nat} (v : BitVec n)
    (hm : ~~~((BitVec.allOnes n).setWidth 32 <<< lo) = m) (hx : v.setWidth 32 <<< lo = x) :
    setField w lo v = w &&& m ||| x := by
  rw [← hm, ← hx, setField]

/-- Clearing bits before setting them all does nothing. -/
theorem and_not_or (w m : U32) : w &&& ~~~m ||| m = w ||| m := by
  ext k
  rw [BitVec.getElem_or, BitVec.getElem_and, BitVec.getElem_not, BitVec.getElem_or]
  cases w[k] <;> cases m[k] <;> rfl

/-- Setting a one-bit field is an or. -/
theorem setField_bit_true (w : U32) (lo : Nat) : setField w lo (BitVec.ofBool true) = w ||| 1#32 <<< lo :=
  and_not_or w _

/-- Clearing a one-bit field is a mask. -/
theorem setField_bit_false (w : U32) (lo : Nat) : setField w lo (BitVec.ofBool false) = w &&& ~~~(1#32 <<< lo) := by
  rw [setField_eq_mask w _ 0#32 lo _ rfl (by simp), BitVec.or_zero]
  rfl

theorem byteOf_setWidth {v : U32} (h : v.toNat ≤ 255) : (byteOf v).setWidth 32 = v :=
  BitVec.eq_of_toNat_eq (by rw [BitVec.toNat_setWidth, byteOf_toNat h]; omega)

theorem postNibbleOf_setWidth {v : U32} (h : 1 ≤ v.toNat ∧ v.toNat ≤ 7) : (postNibbleOf v).setWidth 32 = v - 1 :=
  BitVec.eq_of_toNat_eq (by
    rw [BitVec.toNat_setWidth, postNibbleOf_toNat h, BitVec.toNat_sub_of_le (by simpa [BitVec.le_def] using h.1)]
    exact Nat.mod_eq_of_lt (by omega))

/-- Settles O18: bit 31 is the one-bit field of the two setters. -/
theorem lockAndUnlockWriteBit31 : Obligations.LockAndUnlockWriteBit31 := by
  intro s p hf
  refine ⟨rfl, rfl, fun q hq => ⟨?_, ?_⟩, fun hp => ⟨?_, ?_⟩⟩
  · exact (rewrites_lock p true s q hf hq).trans (by rw [withField, setField_bit_true]; rfl)
  · exact (rewrites_lock p false s q hf hq).trans (by rw [withField, setField_bit_false]; rfl)
  · exact exec_faultedBy hf (withPll_of_ge hp)
  · exact exec_faultedBy hf (withPll_of_ge hp)

/-- Settles O19: bit 30 is the one-bit field of the two setters. -/
theorem enableAndDisableWriteBit30 : Obligations.EnableAndDisableWriteBit30 := by
  intro s p hf
  refine ⟨rfl, rfl, fun q hq => ⟨?_, ?_⟩, fun hp => ⟨?_, ?_⟩⟩
  · exact (rewrites_enable p true s q hf hq).trans (by rw [withField, setField_bit_true]; rfl)
  · exact (rewrites_enable p false s q hf hq).trans (by rw [withField, setField_bit_false]; rfl)
  · exact exec_faultedBy hf (withPll_of_ge hp)
  · exact exec_faultedBy hf (withPll_of_ge hp)

/-- Settles O20: the PLL index, the tap and the value are checked in turn, then the divider is written. -/
theorem setOutDivWritesOneTap : Obligations.SetOutDivWritesOneTap := by
  intro s p b v hf
  refine ⟨rfl, fun q hb hq hv => rewrites_outDiv p hb hv s q hf hq, fun h => exec_faultedBy hf ?_⟩
  rcases h with hp | hb | hv
  · exact withPll_of_ge hp
  · exact withPll_raises fun q => withTap_of_ge hb
  · exact withPll_raises fun q => withTap_raises fun tap => withValue_of_out (by omega)

/-- Settles O21: the field of SETREFDIV is bits 15:8 and holds the value itself. -/
theorem setRefDivWritesItsField : Obligations.SetRefDivWritesItsField := by
  intro s p v hf
  refine ⟨rfl, fun q hq hv => ?_, fun h => exec_faultedBy hf (withPll_withValue_raises ?_)⟩
  · have hv' : 1 ≤ v.toNat ∧ v.toNat ≤ 2 := by rcases hv with rfl | rfl <;> decide
    rw [rewrites_ref p hv' s q hf hq, withField,
      setField_eq_mask _ 0xFFFF00FF#32 (v <<< 8) 8 _ rfl (by rw [byteOf_setWidth (by omega)])]
  · exact h.imp_right (Or.imp_left fun h0 => by simp [h0])

/-- Settles O22: the field of SETFBDIV is bits 23:16 and holds the value itself. -/
theorem setFbDivWritesItsField : Obligations.SetFbDivWritesItsField := by
  intro s p v hf
  refine ⟨rfl, fun q hq hv => ?_, fun h => exec_faultedBy hf (withPll_withValue_raises (h.imp_right .inr))⟩
  rw [rewrites_fb p hv s q hf hq, withField,
    setField_eq_mask _ 0xFF00FFFF#32 (v <<< 16) 16 _ rfl (by rw [byteOf_setWidth hv])]

/-- Settles O23: the fields of SETPOST1 and SETPOST2 are bits 7:4 and 3:0 and hold the value less one. -/
theorem setPostDividersWriteTheirFields : Obligations.SetPostDividersWriteTheirFields := by
  intro s p v hf
  refine ⟨rfl, rfl, fun q hq hlo hhi => ⟨?_, ?_⟩, fun h => ?_⟩
  · rw [rewrites_post1 p ⟨hlo, hhi⟩ s q hf hq, withField,
      setField_eq_mask _ 0xFFFFFF0F#32 ((v - 1) <<< 4) 4 _ rfl (by rw [postNibbleOf_setWidth ⟨hlo, hhi⟩])]
  · rw [rewrites_post2 p ⟨hlo, hhi⟩ s q hf hq, withField,
      setField_eq_mask _ 0xFFFFFFF0#32 (v - 1) 0 _ rfl
        (by rw [postNibbleOf_setWidth ⟨hlo, hhi⟩, BitVec.shiftLeft_zero])]
  · have hout : s.plls.length ≤ p.toNat ∨ v.toNat < 1 ∨ 7 < v.toNat :=
      h.imp_right (Or.imp_left fun h0 => by simp [h0])
    exact ⟨exec_faultedBy hf (withPll_withValue_raises hout), exec_faultedBy hf (withPll_withValue_raises hout)⟩

/-! ## What an operation on one PLL depends on -/

/-- The pseudocode `op` on PLL `k` depends on that PLL's contents alone, which are `q`: in every state it raises one
fault having written nothing, or in every state it gives one result and replaces the PLL by one other. -/
def ActsOn (k : Nat) (q : Pll) (op : State → OpEnd) : Prop :=
  (∃ c d, ∀ s : State, s.plls[k]? = some q → op s = .raised c d s) ∨
  ∃ r q', ∀ s : State, s.plls[k]? = some q → op s = .done r { s with plls := s.plls.set k q' }

section ActsOn

variable {k : Nat} {op : State → OpEnd}

theorem actsOn_raised (c : FaultCode) (d : Option Rat) : ActsOn k q (.raised c d) := .inl ⟨c, d, fun _ _ => rfl⟩

theorem actsOn_read (r : Result) : ActsOn k q (.done r) :=
  .inr ⟨r, q, fun s hq => by
    obtain ⟨hk, rfl⟩ := List.getElem?_eq_some_iff.mp hq
    rw [List.set_getElem_self]⟩

theorem actsOn_setParam (r : Result) (w : U32) : ActsOn k q fun s => .done r (setParam s k w) :=
  .inr ⟨r, { q with param := w }, fun _ hq => congrArg (OpEnd.done r) (setParam_eq_set hq)⟩

theorem actsOn_setOutDiv (r : Result) (tap : Tap) (v : U8) : ActsOn k q fun s => .done r (setOutDiv s k tap v) :=
  .inr ⟨r, { q with od := q.od.set tap v }, fun _ hq => congrArg (OpEnd.done r) (setOutDiv_eq_set hq)⟩

theorem actsOn_withPll {kont : State → Pll → OpEnd} (h : ActsOn p.toNat q fun s => kont s q) :
    ActsOn p.toNat q fun s => withPll s p (kont s) :=
  h.imp (fun ⟨c, d, h⟩ => ⟨c, d, fun s hq => (withPll_of_some hq).trans (h s hq)⟩)
    fun ⟨r, q', h⟩ => ⟨r, q', fun s hq => (withPll_of_some hq).trans (h s hq)⟩

theorem actsOn_withTap {b : U8} {kont : State → Tap → OpEnd}
    (h : ∀ tap, ActsOn k q fun s => kont s tap) : ActsOn k q fun s => withTap s b (kont s) := by
  by_cases hb : b.toNat < 4
  · simpa only [withTap_of_lt hb] using h _
  · simpa only [withTap_of_ge (Nat.not_lt.mp hb)] using actsOn_raised _ _

theorem actsOn_withValue {v : U32} {lo hi : Nat} (h : ActsOn k q op) :
    ActsOn k q fun s => withValue s v lo hi (op s) := by
  by_cases hv : lo ≤ v.toNat ∧ v.toNat ≤ hi
  · simpa only [withValue_of_in hv] using h
  · simpa only [withValue_of_out hv] using actsOn_raised _ _

end ActsOn

/-- Every PLL operation acts on its PLL alone (R39, R100). -/
theorem opOf_actsOn (hi : pllOperand i = some p) (q : Pll) : ActsOn p.toNat q (opOf i) := by
  cases i with
  | pllFreq p b =>
    cases hi
    refine actsOn_withPll (actsOn_withTap fun tap => ?_)
    cases tapFreq q tap with
    | none => exact actsOn_raised _ _
    | some f => exact actsOn_read _
  | pllParam p => cases hi; exact actsOn_withPll (actsOn_read _)
  | pllSetfreq p b f tol =>
    cases hi
    refine actsOn_withPll (actsOn_withTap fun tap => ?_)
    cases search f tol with
    | none => exact actsOn_raised _ _
    | some d => exact actsOn_setParam _ _
  | pllLock p | pllUnlock p | pllEnable p | pllDisable p => cases hi; exact actsOn_withPll (actsOn_setParam _ _)
  | pllSetoutdiv p b v =>
    cases hi
    exact actsOn_withPll (actsOn_withTap fun _ => actsOn_withValue (actsOn_setOutDiv _ _ _))
  | pllSetrefdiv p v | pllSetfbdiv p v | pllSetpost1 p v | pllSetpost2 p v =>
    cases hi
    exact actsOn_withPll (actsOn_withValue (actsOn_setParam _ _))
  | nonceCoreid | nonceScid | nonceScidv | nonceChipaddr | nonceRolldur | chipVrenable | chipHashrate | chipRamp =>
    cases hi

/-- An instruction that leaves no fault record ended with a result. -/
theorem exec_done_of_no_fault (hx : exec i s = .next u) (hu : u.fault = none) :
    s.fault = none ∧ ∃ r t, opOf i s = .done r t ∧ u = respond t (.result r) := by
  rcases exec_cases hx with ⟨r, hr, rfl⟩ | h | ⟨-, c, d, t, -, rfl⟩
  · cases hr.symm.trans hu
  · exact h
  · cases hu

/-- A PLL operation whose index is out of range raises OperandRange (R100). -/
theorem opOf_of_pll_ge (hi : pllOperand i = some p) (hp : s.plls.length ≤ p.toNat) :
    opOf i s = .raised .operandRange none s := by
  cases i <;> cases hi <;> exact withPll_of_ge hp

/-- `s` after an operation on PLL `k` that made its contents `q` and returned `r`. -/
def afterPll (s : State) (k : Nat) (q : Pll) (r : Result) : State :=
  { s with plls := s.plls.set k q, response := some (.result r) }

/-- What a PLL operation that does not fault answers and makes of its PLL, it answers and makes of it in every
unfaulted state with those contents in that PLL. -/
theorem exec_pll_of_no_fault (hi : pllOperand i = some p) (hx : exec i s = .next u) (hu : u.fault = none) :
    ∃ q q' r, s.plls[p.toNat]? = some q ∧ u = afterPll s p.toNat q' r ∧
      ∀ s' : State, s'.fault = none → s'.plls[p.toNat]? = some q → exec i s' = .next (afterPll s' p.toNat q' r) := by
  obtain ⟨-, r, t, ho, rfl⟩ := exec_done_of_no_fault hx hu
  rcases Nat.lt_or_ge p.toNat s.plls.length with hp | hp
  · have hq := List.getElem?_eq_getElem hp
    rcases opOf_actsOn hi s.plls[p.toNat] with ⟨c, d, h⟩ | ⟨r', q', h⟩
    · cases ho.symm.trans (h s hq)
    · cases ho.symm.trans (h s hq)
      exact ⟨_, q', r, hq, rfl, fun s' hf' hq' => exec_of_done hf' (h s' hq')⟩
  · cases ho.symm.trans (opOf_of_pll_ge hi hp)

/-- An operation that changed PLL `k` left the others. -/
theorem afterPll_getElem?_ne {k j : Nat} (h : k ≠ j) (q : Pll) (r : Result) :
    (afterPll s k q r).plls[j]? = s.plls[j]? := List.getElem?_set_ne h

/-- Settles O31: each operation acts on its own PLL alone, and writes to different PLLs commute. -/
theorem operationsOnDifferentPllsCommute : Obligations.OperationsOnDifferentPllsCommute := by
  intro i j p p' s s₁ s₁₂ s₂ s₂₁ hi hj hne hi₁ hj₁₂ hj₂ hi₂₁ h₁₂ h₂₁
  have hne' : p.toNat ≠ p'.toNat := mt BitVec.eq_of_toNat_eq hne
  obtain ⟨h₁, -⟩ := exec_done_of_no_fault hj₁₂ h₁₂
  obtain ⟨hs, -⟩ := exec_done_of_no_fault hi₁ h₁
  obtain ⟨q, a, r, hq, rfl, hact⟩ := exec_pll_of_no_fault hi hi₁ h₁
  obtain ⟨q', a', r', hq', rfl, hact'⟩ := exec_pll_of_no_fault hj hj₁₂ h₁₂
  rw [afterPll_getElem?_ne hne'] at hq'
  cases (hact' s hs hq').symm.trans hj₂
  cases (hact (afterPll s p'.toNat a' r') hs ((afterPll_getElem?_ne hne'.symm a' r').trans hq)).symm.trans hi₂₁
  exact ⟨rfl, rfl, by simp only [afterPll, List.set_comm _ _ hne']⟩

/-! ## Faults -/

/-- Settles O46: in the invariant the frequencies are defined, and the mode is on with a non-zero mask only. -/
theorem defensiveFaultsAreUnreachable : Obligations.DefensiveFaultsAreUnreachable := by
  intro i s u f hs hf hx hu
  have he := opOf_effect i s
  rcases exec_cases hx with ⟨f', hf', -⟩ | ⟨-, r, t, ho, rfl⟩ | ⟨-, c, d, t, ho, rfl⟩
  · cases hf.symm.trans hf'
  · rw [ho] at he
    cases (hf.symm.trans (effect_fault he).symm).trans hu
  · cases hu
    have hr := raisable_of_opOf ho
    refine ⟨code_ne_divideByZero hs hr, fun hc => ?_⟩
    cases hr with
    | zeroOperand hi => exact hi
    | zeroMask hv hm => exact absurd hm (hs.rolling hv).1
    | _ => cases hc

end Sys2Proof.Proofs
end

section
/-!
PROOFS of the statements about the divider search: which accepted candidate it returns, how far it reaches, and the
word PLL.SETFREQ packs of it (40_pll.md R104 to R111, R122, R123).
-/
namespace Sys2Proof.Proofs

open Sys2Proof.Machine Sys2Proof.Laws

variable {target tol : Rat} {d e b : Dividers} {c : Nat × Nat × Nat}

/-! ## Accepted candidates -/

theorem achieved_eq (d : Dividers) : achieved d = 25 * d.fb / (d.ref * d.p1 * d.p2) := by
  simp [achieved, Config.fIn]

/-- The candidate of a combination is the one whose feedback divider R104 rounds to. -/
theorem eq_candidate_iff : d = candidate target (d.ref, d.p1, d.p2) ↔
    d.fb = ⌊target * (d.ref * d.p1 * d.p2) / 25 + 1 / 2⌋ := by
  obtain ⟨hfb, -⟩ := candidate_fb_achieved target d.ref d.p1 d.p2
  rw [← hfb]
  exact ⟨congrArg Dividers.fb, fun h => by obtain ⟨ref, p1, p2, fb⟩ := d; exact congrArg (Dividers.mk ref p1 p2) h⟩

/-- The combination of an accepted candidate is visited. -/
theorem mem_visitOrder_of_accepted (h : AcceptedCandidate target tol d) : (d.ref, d.p1, d.p2) ∈ visitOrder := by
  obtain ⟨href, h2, h21, h1, -⟩ := h
  exact mem_visitOrder.mpr ⟨href, ⟨h2.trans h21, h1⟩, h2, h21.trans h1⟩

/-- The accepted candidates are the candidates of the visited combinations that ACCEPT takes (R104, R105). -/
theorem acceptedCandidate_iff : AcceptedCandidate target tol d ↔
    ∃ c ∈ visitOrder, d = candidate target c ∧ accept target tol d = true := by
  rw [accept_iff, achieved_eq]
  constructor
  · intro h
    have hc := mem_visitOrder_of_accepted h
    obtain ⟨-, -, h21, -, hfb, hlo, hhi, htol⟩ := h
    exact ⟨_, hc, eq_candidate_iff.mpr hfb, hlo, hhi, htol, h21⟩
  · rintro ⟨⟨ref, p1, p2⟩, hc, hd, hlo, hhi, htol, h21⟩
    obtain ⟨rfl, rfl, rfl⟩ : d.ref = ref ∧ d.p1 = p1 ∧ d.p2 = p2 := by rw [hd]; exact ⟨rfl, rfl, rfl⟩
    obtain ⟨href, ⟨-, h1⟩, h2, -⟩ := mem_visitOrder.mp hc
    exact ⟨href, h2, h21, h1, eq_candidate_iff.mp hd, hlo, hhi, htol⟩

/-- What the search returns is an accepted candidate. -/
theorem acceptedCandidate_of_search (h : search target tol = some d) : AcceptedCandidate target tol d :=
  acceptedCandidate_iff.mpr (search_sound h)

/-- Whether a candidate is accepted depends on D alone, but for the order of the post dividers. -/
theorem acceptedCandidate_of_same_product (h : AcceptedCandidate target tol e) {p1 p2 : Nat}
    (hp : p1 * p2 = e.p1 * e.p2) (h2 : 1 ≤ p2) (h21 : p2 ≤ p1) (h1 : p1 ≤ 7) :
    AcceptedCandidate target tol { e with p1 := p1, p2 := p2 } := by
  obtain ⟨href, -, -, -, hfb, hlo, hhi, htol⟩ := h
  have hD : (e.ref * p1 * p2 : Rat) = e.ref * e.p1 * e.p2 := by
    rw [mul_assoc, mul_assoc]
    exact_mod_cast congrArg (e.ref * ·) hp
  exact ⟨href, h2, h21, h1, by rw [hD]; exact hfb, hlo, hhi, by rw [hD]; exact htol⟩

/-! ## The order in which the search prefers candidates -/

/-- `d` is `e` or is preferred to it: by BETTER (R106), or, where neither is better, by the visiting order (R104). -/
def Precedes (d e : Dividers) : Prop :=
  d.p1 * d.p2 < e.p1 * e.p2 ∨
    (d.p1 * d.p2 = e.p1 * e.p2 ∧ (d.p2 < e.p2 ∨ (d.p2 = e.p2 ∧ e.ref ≤ d.ref)))

theorem precedes_refl (d : Dividers) : Precedes d d := .inr ⟨rfl, .inr ⟨rfl, le_rfl⟩⟩

theorem precedes_trans (h : Precedes d e) (h' : Precedes e b) : Precedes d b := by
  unfold Precedes at *
  omega

theorem precedes_of_better (h : better d (some b) = true) : Precedes d b :=
  (better_iff.mp h).imp_right (And.imp_right .inl)

theorem precedes_of_not_better (h : ¬ better d (some b) = true) (href : d.ref ≤ b.ref) : Precedes b d := by
  rw [better_iff] at h
  unfold Precedes
  omega

/-- A visit leaves a best so far that precedes the one before it. -/
theorem consider_precedes_best (target tol : Rat) (b : Dividers) (c : Nat × Nat × Nat) :
    ∃ d, consider target tol (some b) c = some d ∧ Precedes d b := by
  unfold consider
  split
  next h => exact ⟨_, rfl, precedes_of_better (Bool.and_eq_true_iff.mp h).2⟩
  next => exact ⟨b, rfl, precedes_refl b⟩

/-- A visit leaves a best so far that precedes the candidate it visits, if that is accepted and the references visited
before are not smaller. -/
theorem consider_precedes_candidate {best : Option Dividers} (hc : accept target tol (candidate target c) = true)
    (href : ∀ b, best = some b → c.1 ≤ b.ref) :
    ∃ d, consider target tol best c = some d ∧ Precedes d (candidate target c) := by
  unfold consider
  rw [hc, Bool.true_and]
  cases best with
  | none => exact ⟨_, rfl, precedes_refl _⟩
  | some b =>
    split
    next => exact ⟨_, rfl, precedes_refl _⟩
    next h => exact ⟨b, rfl, precedes_of_not_better h (href b rfl)⟩

/-- Visits in an order of falling references end in a best that precedes every accepted candidate visited. -/
theorem foldl_consider_precedes (target tol : Rat) (cs : List (Nat × Nat × Nat))
    (hcs : cs.Pairwise fun c c' => c'.1 ≤ c.1) : ∀ c ∈ cs, accept target tol (candidate target c) = true →
      ∃ d, cs.foldl (consider target tol) none = some d ∧ Precedes d (candidate target c) := by
  induction cs using List.reverseRecOn with
  | nil => exact fun c hc => absurd hc List.not_mem_nil
  | append_singleton cs c ih =>
    obtain ⟨hpre, -, hlast⟩ := List.pairwise_append.mp hcs
    intro c' hc' ha
    simp only [List.foldl_append, List.foldl_cons, List.foldl_nil]
    rcases List.mem_append.mp hc' with hc' | hc'
    · obtain ⟨b, hb, hbc⟩ := ih hpre c' hc' ha
      obtain ⟨d, hd, hdb⟩ := consider_precedes_best target tol b c
      exact ⟨d, hb ▸ hd, precedes_trans hdb hbc⟩
    · obtain rfl := List.mem_singleton.mp hc'
      refine consider_precedes_candidate ha fun b hb => ?_
      rcases foldl_consider_sound target tol cs none hb with h | ⟨c'', hc'', rfl, -⟩
      · cases h
      · exact hlast c'' hc'' c' (List.mem_singleton_self c')

/-- The reference divider 2 is visited before 1 (R104). -/
theorem visitOrder_ref_falls : visitOrder.Pairwise fun c c' => c'.1 ≤ c.1 := by decide

/-- Where a candidate is accepted the search returns one that precedes it. -/
theorem search_precedes (h : AcceptedCandidate target tol e) : ∃ d, search target tol = some d ∧ Precedes d e := by
  obtain ⟨c, hc, rfl, ha⟩ := acceptedCandidate_iff.mp h
  exact foldl_consider_precedes target tol visitOrder visitOrder_ref_falls c hc ha

theorem search_eq_none_iff : search target tol = none ↔ ∀ d, ¬ AcceptedCandidate target tol d := by
  constructor
  · intro h d hd
    obtain ⟨d', hd', -⟩ := search_precedes hd
    cases h.symm.trans hd'
  · exact fun h => Option.eq_none_iff_forall_not_mem.mpr fun d hd => h d (acceptedCandidate_of_search hd)

/-- `d` is an accepted candidate, and R107's choice among all of them. -/
def FirstOfSmallestProduct (target tol : Rat) (d : Dividers) : Prop :=
  AcceptedCandidate target tol d ∧ ∀ e, AcceptedCandidate target tol e →
    d.p1 * d.p2 < e.p1 * e.p2 ∨
    (d.p1 * d.p2 = e.p1 * e.p2 ∧ (e.ref < d.ref ∨ (e.ref = d.ref ∧ e.p1 ≤ d.p1)))

/-- The search returns R107's choice: with an accepted candidate of its product the search has seen the one of the same
reference and its own post dividers, so its reference is not smaller. -/
theorem firstOfSmallestProduct_of_search (h : search target tol = some d) : FirstOfSmallestProduct target tol d := by
  obtain ⟨-, h2, h21, h1, -⟩ := acceptedCandidate_of_search h
  have hpre {e : Dividers} (he : AcceptedCandidate target tol e) : Precedes d e := by
    obtain ⟨d', hd', hp⟩ := search_precedes he
    cases h.symm.trans hd'
    exact hp
  refine ⟨acceptedCandidate_of_search h, fun e he => ?_⟩
  rcases hpre he with hlt | ⟨heq, hp2⟩
  · exact .inl hlt
  · have href : e.ref ≤ d.ref := by
      have := hpre (acceptedCandidate_of_same_product he heq h2 h21 h1)
      simpa [Precedes] using this
    have hp1 : e.p1 ≤ d.p1 := by
      have hle : d.p2 ≤ e.p2 := by omega
      exact Nat.le_of_mul_le_mul_right ((Nat.mul_le_mul_left e.p1 hle).trans_eq heq.symm) h2
    exact .inr ⟨heq, by omega⟩

/-- R107's choice is one candidate. -/
theorem firstOfSmallestProduct_unique (hd : FirstOfSmallestProduct target tol d)
    (he : FirstOfSmallestProduct target tol e) : d = e := by
  have hde := hd.2 e he.1
  have hed := he.2 d hd.1
  obtain ⟨hprod, href, hp1⟩ : d.p1 * d.p2 = e.p1 * e.p2 ∧ d.ref = e.ref ∧ d.p1 = e.p1 := by omega
  obtain ⟨-, h2, h21, -, hfb, -⟩ := hd.1
  obtain ⟨-, -, -, -, hfb', -⟩ := he.1
  have hp2 : d.p2 = e.p2 := Nat.eq_of_mul_eq_mul_left (h2.trans h21) (hp1 ▸ hprod)
  rw [eq_candidate_iff.mpr hfb, eq_candidate_iff.mpr hfb', href, hp1, hp2]

/-- Settles O25: the search returns R107's choice, which is one candidate. -/
theorem searchReturnsTheFirstOfSmallestProduct : Obligations.SearchReturnsTheFirstOfSmallestProduct := by
  refine fun target tol => ⟨search_eq_none_iff, fun d => ⟨firstOfSmallestProduct_of_search, fun hd => ?_⟩⟩
  obtain ⟨d', hd', -⟩ := search_precedes hd.1
  rw [hd', firstOfSmallestProduct_unique hd (firstOfSmallestProduct_of_search hd')]

/-! ## The reach of the search -/

/-- The search fails where every accepted candidate would miss the target by the tolerance. -/
theorem search_eq_none_of_far (h : ∀ d, AcceptedCandidate target tol d → tol ≤ |target - achieved d|) :
    search target tol = none := by
  refine search_eq_none_iff.mpr fun d hd => ?_
  have hfar := h d hd
  obtain ⟨-, -, -, -, -, -, -, htol⟩ := hd
  rw [← achieved_eq] at htol
  exact absurd htol hfar.not_gt

/-- D of an accepted candidate lies in 1 .. 98 (R111). -/
theorem product_bounds (h : AcceptedCandidate target tol d) :
    1 ≤ d.ref * d.p1 * d.p2 ∧ d.ref * d.p1 * d.p2 ≤ 98 := by
  obtain ⟨href, h2, h21, h1, -⟩ := h
  exact ⟨Nat.mul_pos (Nat.mul_pos (by omega) (by omega)) h2,
    Nat.mul_le_mul (Nat.mul_le_mul (show d.ref ≤ 2 by omega) h1) (h21.trans h1)⟩

/-- The frequency an accepted candidate achieves lies in 25 * 160 / 98 .. 25 * 239 (R111). -/
theorem achieved_bounds (h : AcceptedCandidate target tol d) : 2000 / 49 ≤ achieved d ∧ achieved d ≤ 5975 := by
  obtain ⟨hD, hD'⟩ := product_bounds h
  obtain ⟨-, -, -, -, -, hlo, hhi, -⟩ := h
  have hD₁ : (1 : Rat) ≤ d.ref * d.p1 * d.p2 := by exact_mod_cast hD
  have hD₂ : (d.ref * d.p1 * d.p2 : Rat) ≤ 98 := by exact_mod_cast hD'
  have hlo' : (160 : Rat) ≤ d.fb := by exact_mod_cast hlo
  have hhi' : (d.fb : Rat) ≤ 239 := by exact_mod_cast hhi
  rw [achieved_eq, le_div_iff₀ (by linarith), div_le_iff₀ (by linarith)]
  constructor <;> linarith

/-- A quotient of whole numbers with a small denominator that is within 1/1000 of another is equal to it. -/
theorem mul_eq_of_close {a b D fb : Int} (hb : 0 < b) (hD : 0 < D) (hbD : b * D ≤ 1000)
    (h : |(a / b : Rat) - 25 * fb / D| < 1 / 1000) : a * D = 25 * fb * b := by
  have hb' : (0 : Rat) < b := by exact_mod_cast hb
  have hD' : (0 : Rat) < D := by exact_mod_cast hD
  have hbD' : (b * D : Rat) ≤ 1000 := by exact_mod_cast hbD
  have hlt : |((a * D - 25 * fb * b : Int) : Rat)| < 1 := by
    have e : ((a * D - 25 * fb * b : Int) : Rat) = (a / b - 25 * fb / D) * (b * D) := by
      push_cast
      field_simp
    rw [e, abs_mul, abs_of_pos (mul_pos hb' hD')]
    calc |(a / b : Rat) - 25 * fb / D| * (b * D) < 1 / 1000 * (b * D) := by gcongr
      _ ≤ 1 := by linarith
  exact sub_eq_zero.mp (Int.abs_lt_one_iff.mp (by exact_mod_cast hlt))

/-- Whether a combination reaches `a / b` MHz exactly with an accepted feedback divider. -/
def reachesExactly (a b : Nat) (c : Nat × Nat × Nat) : Bool :=
  decide (c.2.2 ≤ c.2.1 ∧ 25 * b ∣ a * (c.1 * c.2.1 * c.2.2) ∧
    160 * (25 * b) ≤ a * (c.1 * c.2.1 * c.2.2) ∧ a * (c.1 * c.2.1 * c.2.2) ≤ 239 * (25 * b))

/-- At tolerance 1/1000 an accepted candidate for a frequency with a small denominator is exact. -/
theorem reachesExactly_of_accepted {a b : Nat} (hb : 0 < b) (hb' : b * 98 ≤ 1000)
    (h : AcceptedCandidate (a / b) (1 / 1000) d) : reachesExactly a b (d.ref, d.p1, d.p2) = true := by
  obtain ⟨hD, hD'⟩ := product_bounds h
  obtain ⟨-, -, h21, -, -, hlo, hhi, htol⟩ := h
  have hbD : b * (d.ref * d.p1 * d.p2) ≤ 1000 := (Nat.mul_le_mul_left b hD').trans hb'
  have hexact : (a : Int) * (d.ref * d.p1 * d.p2 : Nat) = 25 * d.fb * b :=
    mul_eq_of_close (by exact_mod_cast hb) (by exact_mod_cast hD) (by exact_mod_cast hbD) (by push_cast; exact htol)
  obtain ⟨n, hn⟩ : ∃ n : Nat, d.fb = n := ⟨d.fb.toNat, by omega⟩
  have hexact' : a * (d.ref * d.p1 * d.p2) = n * (25 * b) := by
    rw [hn] at hexact
    zify
    push_cast at hexact
    linarith
  refine decide_eq_true ⟨h21, ?_⟩
  rw [hexact']
  exact ⟨Nat.dvd_mul_left _ _, Nat.mul_le_mul_right _ (by omega), Nat.mul_le_mul_right _ (by omega)⟩

/-- A combination that is exact gives an accepted candidate, its feedback divider being whole before it is rounded. -/
theorem accepted_of_reachesExactly {a b ref p1 p2 : Nat} (hb : 0 < b) (hc : (ref, p1, p2) ∈ visitOrder)
    (h : reachesExactly a b (ref, p1, p2) = true) :
    ∃ n : Nat, AcceptedCandidate (a / b) (1 / 1000) ⟨ref, p1, p2, n⟩ := by
  obtain ⟨href, ⟨hp1, h1⟩, h2, -⟩ := mem_visitOrder.mp hc
  obtain ⟨h21, ⟨n, hn⟩, hlo, hhi⟩ := of_decide_eq_true h
  rw [hn, Nat.mul_comm (25 * b) n] at hlo hhi
  have hlo' : 160 ≤ n := Nat.le_of_mul_le_mul_right hlo (by omega)
  have hhi' : n ≤ 239 := Nat.le_of_mul_le_mul_right hhi (by omega)
  have hb₀ : (b : Rat) ≠ 0 := by exact_mod_cast hb.ne'
  have hD : (ref * p1 * p2 : Rat) ≠ 0 := by
    have : ref * p1 * p2 ≠ 0 := (Nat.mul_pos (Nat.mul_pos (by omega) hp1) h2).ne'
    exact_mod_cast this
  have hexact : (a / b : Rat) * (ref * p1 * p2) = 25 * n := by
    have hn' : a * (ref * p1 * p2) = 25 * n * b := hn.trans (Nat.mul_right_comm 25 b n)
    rw [div_mul_eq_mul_div, div_eq_iff hb₀]
    exact_mod_cast hn'
  refine ⟨n, href, h2, h21, h1, ?_, by simpa using hlo', by simpa using hhi', ?_⟩
  · rw [hexact, mul_div_cancel_left₀ _ (by norm_num), eq_comm, Int.floor_eq_iff]
    constructor <;> push_cast <;> linarith
  · rw [Int.cast_natCast, ← hexact, mul_div_cancel_right₀ _ hD, sub_self, abs_zero]
    norm_num

/-- At tolerance 1/1000 the search fails for a frequency with a small denominator when no combination is exact. -/
theorem search_div_eq_none_iff {a b : Nat} (hb : 0 < b) (hb' : b * 98 ≤ 1000) :
    search (a / b) (1 / 1000) = none ↔ visitOrder.any (reachesExactly a b) = false := by
  rw [search_eq_none_iff, List.any_eq_false]
  constructor
  · rintro h ⟨ref, p1, p2⟩ hc hx
    obtain ⟨n, hd⟩ := accepted_of_reachesExactly hb hc hx
    exact h _ hd
  · exact fun h d hd => h _ (mem_visitOrder_of_accepted hd) (reachesExactly_of_accepted hb hb' hd)

/-- The multiples of 6.25 MHz up to 1000 MHz that are reached exactly. -/
theorem reachesExactly_multiples : ∀ k < 161, 1 ≤ k →
    (visitOrder.any (reachesExactly (25 * k) 4) = false ↔ k ≤ 7 ∨ (121 ≤ k ∧ k % 2 = 1)) := by
  decide +kernel

/-- Settles O26: D, fb and the reach are bounds of an accepted candidate; at the two kinds of target named, a candidate
within 1/1000 MHz would be exact. -/
theorem searchReachIs2000Over49To5975 : Obligations.SearchReachIs2000Over49To5975 := by
  refine ⟨fun target tol => ⟨fun d hd => ?_, fun htol => ?_, fun htol => ?_, fun htol => ?_⟩, ?_, fun k h1 hk => ?_⟩
  · have ha := acceptedCandidate_of_search hd
    obtain ⟨hD, hD'⟩ := product_bounds ha
    obtain ⟨hlo, hhi⟩ := achieved_bounds ha
    obtain ⟨-, -, -, -, hfb, hfb', -⟩ := search_bounds hd
    exact ⟨hD, hD', hfb, hfb', hlo, hhi⟩
  · exact search_eq_none_of_far fun d _ => htol.trans (abs_nonneg _)
  · refine search_eq_none_of_far fun d hd => le_abs.mpr (.inr ?_)
    linarith [(achieved_bounds hd).1]
  · refine search_eq_none_of_far fun d hd => le_abs.mpr (.inl ?_)
    linarith [(achieved_bounds hd).2]
  · have h := (search_div_eq_none_iff (a := 77) (b := 1) (by decide) (by decide)).mpr (by decide +kernel)
    simpa using h
  · have e : (25 / 4 * k : Rat) = (25 * k : Nat) / (4 : Nat) := by push_cast; ring
    rw [e, search_div_eq_none_iff (by decide) (by decide)]
    exact reachesExactly_multiples k (by omega) h1

/-! ## The word of a search -/

/-- The 2400 MHz condition of a search result by its dividers (R109). -/
theorem vco_condition_iff (href : d.ref = 1 ∨ d.ref = 2) (hfb : 160 ≤ d.fb) :
    (2400 : Rat) ≤ d.fb * 25 / d.ref ↔ d.ref = 1 ∨ 192 ≤ d.fb := by
  have hpos : (0 : Rat) < d.ref := by exact_mod_cast (show 0 < d.ref by omega)
  have e : (2400 * d.ref : Rat) ≤ d.fb * 25 ↔ 2400 * (d.ref : Int) ≤ d.fb * 25 := by exact_mod_cast Iff.rfl
  rw [le_div_iff₀ hpos, e]
  omega

/-- Settles O27: the top byte of the word is 0xD0 where the 2400 MHz condition holds and 0xC0 where it does not. -/
theorem vcoBitOfSearchWords : Obligations.VcoBitOfSearchWords := by
  intro target tol d hd
  obtain ⟨href, -, -, -, hfb, -⟩ := search_bounds hd
  obtain ⟨htop, -⟩ := fields_of_search hd
  have hvco := vco_condition_iff href hfb
  refine ⟨hvco, fun h => ?_, fun _ h => ?_, fun h h' => ?_⟩
  · rw [htop, if_pos (hvco.mpr (.inl h))]
  · rw [htop, if_pos (hvco.mpr (.inr h))]
  · rw [htop, if_neg (mt hvco.mp (by omega))]

/-! ## PLL.SETFREQ -/

/-- PLL.SETFREQ of an existing PLL and tap ends as its search does (R110). -/
theorem pllSetfreq_of_tap {s : State} {p t : U8} {q : Pll} (hq : s.plls[p.toNat]? = some q) (ht : t.toNat < 4)
    (f tol : Rat) : opOf (.pllSetfreq p t f tol) s = match search f tol with
      | none => .raised .noDividerFound none s
      | some d => .done .ok (setParam s p.toNat (pack d)) :=
  (withPll_of_some hq).trans (withTap_of_lt ht)

/-- Settles O24: past its range checks PLL.SETFREQ writes the word its search packs, which is the sum of its fields. -/
theorem setFreqWritesThePackedWord : Obligations.SetFreqWritesThePackedWord := by
  intro s p t f tol hf
  refine ⟨rfl, fun q d hq ht hd => ?_, fun hp ht hd => exec_faultedBy hf ?_, fun h =>
    exec_faultedBy hf (withPll_withTap_raises h)⟩
  · rw [exec_of_done (r := .ok) hf (by rw [pllSetfreq_of_tap hq ht, hd]), setParam_eq_set hq, pack_of_search hd]
    rfl
  · rw [pllSetfreq_of_tap (List.getElem?_eq_getElem hp) ht, hd]

/-- Settles O28: the word written is that of an accepted candidate, whose fields and frequency are the dividers'. -/
theorem setFreqLandsWithinTolerance : Obligations.SetFreqLandsWithinTolerance := by
  intro s u p t f tol hf hx hu
  obtain ⟨-, r, v, ho, rfl⟩ := exec_done_of_no_fault hx hu
  obtain ⟨q, -, -, hq, -⟩ := exec_pll_of_no_fault rfl hx hu
  obtain ⟨d, hd, rfl⟩ := pllSetfreqOp_done ho
  obtain ⟨-, efb, eref, e1, e2⟩ := fields_of_search hd
  obtain ⟨href, h2, h21, h1, hlo, hhi, htol⟩ := search_bounds hd
  have hq' : (respond (setParam s p.toNat (pack d)) (.result r)).plls[p.toNat]? = some { q with param := pack d } := by
    simp [hq]
  obtain ⟨-, hfreq, -⟩ := freqReturnsTheTapFrequency _ p t hu
  refine ⟨_, hq', (preFreqOf_of_search hd).symm ▸ htol, ?_, ?_, ?_, fun ht => hfreq _ ht hq' ?_⟩
  all_goals
    dsimp only
    omega

end Sys2Proof.Proofs
end

section
/-!
PROOFS of the statements about the nonce decoder: each field as a part of the nonce, the round trip of the fields, and
the rolling duration (41_nonce_decoder.md R141 to R148).
-/
namespace Sys2Proof.Proofs

open Sys2Proof.Machine Sys2Proof.Laws

variable {s u : State} {q : Pll} {n ver : U32} {f x : Rat}

/-! ## The fields of a nonce -/

/-- The constraint on the geometry of a nonce (00_scope.md R9). -/
theorem nonceFits_iff {c : Config} :
    c.nonceFits = true ↔ 1 ≤ c.coreIdBits ∧ c.coreIdBits + c.smallCoreIdBits + 8 ≤ 32 := decide_eq_true_iff

/-- A logical shift is a division (R140, R141). -/
theorem shiftRight_eq_ofNat (n : U32) (k : Nat) : n >>> k = BitVec.ofNat 32 (n.toNat / 2 ^ k) := by
  rw [← Nat.shiftRight_eq_div_pow, ← BitVec.toNat_ushiftRight, BitVec.ofNat_toNat, BitVec.setWidth_eq]

/-- The small-core field as a number: MASK_S keeps S bits (R142, R143). -/
theorem shiftRight_and_smallCoreMask (h : s.cfg.nonceFits = true) (n : U32) (k : Nat) :
    n >>> k &&& smallCoreMask s = BitVec.ofNat 32 (n.toNat / 2 ^ k % 2 ^ s.cfg.smallCoreIdBits) := by
  obtain ⟨-, hfit⟩ := nonceFits_iff.mp h
  rw [← Nat.shiftRight_eq_div_pow, ← BitVec.toNat_ushiftRight, ← toNat_and_smallCoreMask s _ (by omega),
    BitVec.ofNat_toNat, BitVec.setWidth_eq]

/-- The chip address as a number (R144). -/
theorem setWidth_shiftRight (n : U32) (k : Nat) :
    (n >>> k).setWidth 8 = BitVec.ofNat 8 (n.toNat / 2 ^ k % 256) := by
  apply BitVec.eq_of_toNat_eq
  simp [Nat.shiftRight_eq_div_pow]

theorem nonceCoreid_op (n : U32) (s : State) : opOf (.nonceCoreid n) s =
    .done (.coreId (BitVec.ofNat 32 (n.toNat / 2 ^ (32 - s.cfg.coreIdBits)))) s := by
  rw [← shiftRight_eq_ofNat]
  rfl

theorem nonceScid_op_of_on (hv : s.vrEn = true) : opOf (.nonceScid n) s = .raised .modeMismatch none s := if_pos hv

theorem nonceScid_op_of_off (hfit : s.cfg.nonceFits = true) (hv : s.vrEn = false) : opOf (.nonceScid n) s =
    .done (.smallCoreId (BitVec.ofNat 32
      (n.toNat / 2 ^ (32 - s.cfg.coreIdBits - s.cfg.smallCoreIdBits) % 2 ^ s.cfg.smallCoreIdBits))) s := by
  rw [← shiftRight_and_smallCoreMask hfit]
  exact if_neg (by simp [hv])

theorem nonceScidv_op_of_off (hv : s.vrEn = false) : opOf (.nonceScidv ver) s = .raised .modeMismatch none s :=
  if_pos (by simp [hv])

theorem nonceScidv_op_of_zero (hv : s.vrEn = true) (hm : s.vrMask = 0) :
    opOf (.nonceScidv ver) s = .raised .zeroVersionMask none s :=
  (if_neg (by simp [hv])).trans (if_pos hm)

theorem nonceScidv_op_of_mask (hfit : s.cfg.nonceFits = true) (hv : s.vrEn = true) (hm : s.vrMask ≠ 0) :
    opOf (.nonceScidv ver) s =
      .done (.smallCoreId (BitVec.ofNat 32 (ver.toNat / 2 ^ tzc s.vrMask % 2 ^ s.cfg.smallCoreIdBits))) s := by
  rw [← shiftRight_and_smallCoreMask hfit]
  exact (if_neg (by simp [hv])).trans (if_neg hm)

theorem nonceChipaddr_op_of_on (hv : s.vrEn = true) : opOf (.nonceChipaddr n) s =
    .done (.chipAddress (BitVec.ofNat 8 (n.toNat / 2 ^ (24 - s.cfg.coreIdBits) % 256))) s := by
  rw [← setWidth_shiftRight, show 24 - s.cfg.coreIdBits = 32 - s.cfg.coreIdBits - 8 by omega]
  exact if_pos hv

theorem nonceChipaddr_op_of_off (hv : s.vrEn = false) : opOf (.nonceChipaddr n) s =
    .done (.chipAddress (BitVec.ofNat 8
      (n.toNat / 2 ^ (24 - s.cfg.coreIdBits - s.cfg.smallCoreIdBits) % 256))) s := by
  rw [← setWidth_shiftRight, show 24 - s.cfg.coreIdBits - s.cfg.smallCoreIdBits =
    32 - s.cfg.coreIdBits - s.cfg.smallCoreIdBits - 8 by omega]
  exact if_neg (by simp [hv])

/-- Settles O35: a logical shift is a division. -/
theorem coreIdIsTheTopBits : Obligations.CoreIdIsTheTopBits :=
  fun s n hf _ => ⟨rfl, exec_answered hf (nonceCoreid_op n s)⟩

/-- Settles O36: the mode selects the branch, and MASK_S keeps S bits. -/
theorem smallCoreIdWithRollingOff : Obligations.SmallCoreIdWithRollingOff :=
  fun _ _ hf hfit => ⟨rfl, fun hv => exec_answered hf (nonceScid_op_of_off hfit hv),
    fun hv => exec_faultedBy hf (nonceScid_op_of_on hv)⟩

/-- Settles O37: the index of the lowest set bit is `tzc` of the mask, which is then not 0. -/
theorem smallCoreIdFromTheVersionWord : Obligations.SmallCoreIdFromTheVersionWord := by
  intro s ver hf hfit
  refine ⟨rfl, fun k hv hk hlow => exec_answered hf ?_, fun hv => exec_faultedBy hf (nonceScidv_op_of_off hv),
    fun hv hm => exec_faultedBy hf (nonceScidv_op_of_zero hv hm)⟩
  have hm : s.vrMask ≠ 0 := fun h0 => by simp [h0] at hk
  rw [nonceScidv_op_of_mask hfit hv hm, tzc_eq hk hlow]

/-- Settles O38: the mode selects the position of the 8 bits. -/
theorem chipAddressInBothModes : Obligations.ChipAddressInBothModes :=
  fun _ _ hf _ => ⟨rfl, fun hv => exec_answered hf (nonceChipaddr_op_of_on hv),
    fun hv => exec_answered hf (nonceChipaddr_op_of_off hv)⟩

/-! ## The searched bits -/

/-- Numbers that agree from bit `a` up agree from every higher bit up. -/
theorem div_two_pow_congr {m m' a b : Nat} (h : m / 2 ^ a = m' / 2 ^ a) (hab : a ≤ b) : m / 2 ^ b = m' / 2 ^ b := by
  obtain ⟨d, rfl⟩ := Nat.exists_eq_add_of_le hab
  rw [Nat.pow_add, ← Nat.div_div_eq_div_mul, h, Nat.div_div_eq_div_mul]

/-- Operations whose pseudocode gives one result and writes nothing have one next state. -/
theorem exec_congr_of_done {i j : Instr} {r : Result} (hf : s.fault = none) (hi : opOf i s = .done r s)
    (hj : opOf j s = .done r s) : exec i s = exec j s := (exec_answered hf hi).trans (exec_answered hf hj).symm

/-- Settles O42: every field a mode decodes begins at or above its searched bits. -/
theorem searchedNonceBitsAreNotDecoded : Obligations.SearchedNonceBitsAreNotDecoded := by
  intro s n n' searched hfit hs h hf
  have agree (b : Nat) (hb : searched ≤ b) : n.toNat / 2 ^ b = n'.toNat / 2 ^ b := div_two_pow_congr h hb
  refine ⟨exec_congr_of_done hf (nonceCoreid_op n s) ?_, ?_, fun hv =>
    exec_congr_of_done hf (nonceScid_op_of_off hfit hv) ?_⟩
  · rw [nonceCoreid_op, agree _ (by split at hs <;> omega)]
  · cases hv : s.vrEn with
    | true =>
      refine exec_congr_of_done hf (nonceChipaddr_op_of_on hv) ?_
      rw [nonceChipaddr_op_of_on hv, agree _ (by simp [hs, hv])]
    | false =>
      refine exec_congr_of_done hf (nonceChipaddr_op_of_off hv) ?_
      rw [nonceChipaddr_op_of_off hv, agree _ (by simp [hs, hv])]
  · rw [nonceScid_op_of_off hfit hv, agree _ (by rw [if_neg (by simp [hv])] at hs; omega)]

/-! ## The round trip -/

/-- A field of `w` bits above a rest of `lo` bits ends below bit `lo + w`. -/
theorem field_add_lt {v w lo r : Nat} (hv : v < 2 ^ w) (hr : r < 2 ^ lo) : v * 2 ^ lo + r < 2 ^ (lo + w) :=
  calc v * 2 ^ lo + r < (v + 1) * 2 ^ lo := by rw [Nat.add_mul, Nat.one_mul]; omega
    _ ≤ 2 ^ w * 2 ^ lo := Nat.mul_le_mul_right _ hv
    _ = 2 ^ (lo + w) := by rw [Nat.add_comm, Nat.pow_add]

/-- What stands above a rest of `lo` bits. -/
theorem field_add_div {v lo r : Nat} (hr : r < 2 ^ lo) : (v * 2 ^ lo + r) / 2 ^ lo = v := by
  rw [Nat.mul_comm, Nat.mul_add_div (Nat.two_pow_pos lo), Nat.div_eq_of_lt hr, Nat.add_zero]

/-- The three fields of a nonce made of them, read back (R146). With version rolling on S and `k` are 0 here. -/
theorem fields_of_nonce {C S c k a : Nat} (hfit : C + S + 8 ≤ 32) (hc : c < 2 ^ C) (hk : k < 2 ^ S) (ha : a < 256)
    (hn : n = BitVec.ofNat 32 (c * 2 ^ (32 - C) + k * 2 ^ (32 - C - S) + a * 2 ^ (24 - C - S))) :
    n.toNat / 2 ^ (32 - C) = c ∧ n.toNat / 2 ^ (32 - C - S) % 2 ^ S = k ∧ n.toNat / 2 ^ (24 - C - S) % 256 = a := by
  obtain ⟨e, he⟩ := Nat.exists_eq_add_of_le hfit
  have e₂ : 32 - C = e + 8 + S := by omega
  have e₁ : 32 - C - S = e + 8 := by omega
  have e₀ : 24 - C - S = e := by omega
  rw [e₀, e₁, e₂] at hn ⊢
  have hlow : a * 2 ^ e < 2 ^ (e + 8) := field_add_lt (r := 0) ha (Nat.two_pow_pos e)
  have hmid : k * 2 ^ (e + 8) + a * 2 ^ e < 2 ^ (e + 8 + S) := field_add_lt hk hlow
  have hval : n.toNat = c * 2 ^ (e + 8 + S) + (k * 2 ^ (e + 8) + a * 2 ^ e) := by
    have hlt := field_add_lt hc hmid
    rw [show e + 8 + S + C = 32 by omega] at hlt
    rw [hn, BitVec.toNat_ofNat, Nat.add_assoc, Nat.mod_eq_of_lt hlt]
  have hval₁ : n.toNat = (c * 2 ^ S + k) * 2 ^ (e + 8) + a * 2 ^ e := by rw [hval]; ring
  have hval₀ : n.toNat = ((c * 2 ^ S + k) * 256 + a) * 2 ^ e + 0 := by rw [hval]; ring
  refine ⟨?_, ?_, ?_⟩
  · rw [hval, field_add_div hmid]
  · rw [hval₁, field_add_div hlow, Nat.mul_add_mod_of_lt hk]
  · rw [hval₀, field_add_div (Nat.two_pow_pos e), Nat.mul_add_mod_of_lt ha]

/-- The small-core field of a version word made of it, read back (R146). -/
theorem field_of_version {S k z : Nat} (hk : k < 2 ^ S) (hz : z + S ≤ 32) (hver : ver = BitVec.ofNat 32 (k * 2 ^ z)) :
    ver.toNat / 2 ^ z % 2 ^ S = k := by
  have hlt : k * 2 ^ z < 2 ^ 32 :=
    (field_add_lt (r := 0) hk (Nat.two_pow_pos z)).trans_le (Nat.pow_le_pow_right (by decide) hz)
  rw [hver, BitVec.toNat_ofNat, Nat.mod_eq_of_lt hlt, Nat.mul_div_cancel _ (Nat.two_pow_pos z), Nat.mod_eq_of_lt hk]

/-- Settles O40: the fields are disjoint, so each is read back from its own bits. -/
theorem nonceFieldsRoundTrip : Obligations.NonceFieldsRoundTrip := by
  rintro s c k a C S hf hfit rfl rfl hc hk ha
  obtain ⟨-, hfit'⟩ := nonceFits_iff.mp hfit
  refine ⟨fun hv n hn => ?_, fun hv hm hz n ver hn hver => ?_⟩
  · obtain ⟨ec, ek, ea⟩ := fields_of_nonce hfit' hc hk ha hn
    refine ⟨exec_answered hf ?_, exec_answered hf ?_, exec_answered hf ?_⟩
    · rw [nonceCoreid_op, ec]
    · rw [nonceScid_op_of_off hfit hv, ek]
    · rw [nonceChipaddr_op_of_off hv, ea]
  · obtain ⟨ec, -, ea⟩ := fields_of_nonce (n := n) (S := 0) (k := 0) (by omega) hc Nat.one_pos ha (by simpa using hn)
    refine ⟨exec_answered hf ?_, exec_answered hf ?_, exec_answered hf ?_⟩
    · rw [nonceCoreid_op, ec]
    · rw [nonceScidv_op_of_mask hfit hv hm, field_of_version hk hz hver]
    · rw [nonceChipaddr_op_of_on hv]
      exact congrArg (fun y => OpEnd.done (.chipAddress (BitVec.ofNat 8 y)) s) ea

/-! ## The rolling duration -/

/-- The exponent of the search space of NONCE.ROLLDUR in each mode (R145). -/
def rollingBits (s : State) : Nat :=
  if s.vrEn then 32 - s.cfg.coreIdBits - 8 + popcount s.vrMask - s.cfg.smallCoreIdBits
  else 32 - s.cfg.coreIdBits - s.cfg.smallCoreIdBits - 8

theorem rollingBits_of_on (hfit : s.cfg.nonceFits = true) (hv : s.vrEn = true) :
    rollingBits s = 24 - s.cfg.coreIdBits - s.cfg.smallCoreIdBits +
      (Finset.univ.filter fun k : Fin 32 => s.vrMask.getLsbD k = true).card := by
  obtain ⟨-, hfit'⟩ := nonceFits_iff.mp hfit
  rw [rollingBits, if_pos hv, popcount_eq_card]
  omega

theorem rollingBits_of_off (hv : s.vrEn = false) :
    rollingBits s = 24 - s.cfg.coreIdBits - s.cfg.smallCoreIdBits := by
  rw [rollingBits, if_neg (by simp [hv])]
  omega

/-- Everything NONCE.ROLLDUR can do at a defined hash frequency, its checks in order (R145). -/
theorem nonceRolldur_op (hh : hashFrequency s = some f) : opOf .nonceRolldur s =
    if f = 0 then .raised .zeroHashFrequency none s
    else if s.vrEn = true ∧ s.vrMask = 0 then .raised .zeroVersionMask none s
    else .done (.duration (2 ^ rollingBits s / (f * 1000000))) s := by
  have hHz : hertz f = f * 1000000 := by norm_num [hertz]
  have hzero : f * 1000000 = 0 ↔ f = 0 := by simp
  simp only [opOf, nonceRolldurOp, withHashFrequency, hh, hHz, hzero, rollingBits]
  cases s.vrEn <;> simp

theorem nonceRolldur_op_of_undefined (hh : hashFrequency s = none) :
    opOf .nonceRolldur s = .raised .divideByZero none s := by
  simp only [opOf, nonceRolldurOp, withHashFrequency, hh]

/-- A defined tap frequency is 0 exactly at feedback divider 0 (R101). -/
theorem preFreqOf_div_eq_zero_iff {w : U32} (href : bitsOf w 15 8 ≠ 0) (od : Nat) :
    preFreqOf w / (od + 1) = 0 ↔ bitsOf w 23 16 = 0 := by
  have hden : (bitsOf w 15 8 * (bitsOf w 7 4 + 1) * (bitsOf w 3 0 + 1) : Rat) ≠ 0 := by positivity
  have hod : (od + 1 : Rat) ≠ 0 := by positivity
  simp [preFreqOf, hden, hod]

theorem preFreqOf_div_nonneg (w : U32) (od : Nat) : 0 ≤ preFreqOf w / (od + 1) := by
  unfold preFreqOf
  positivity

/-- Settles O39: the hash frequency is undefined at ref 0 and 0 at fb 0; the other checks follow in order. -/
theorem rollingDurationIsSpaceOverFrequency : Obligations.RollingDurationIsSpaceOverFrequency := by
  intro s q f hf hfit hq hfreq
  have hop (href : bitsOf q.param 15 8 ≠ 0) := nonceRolldur_op (f := f) (hfreq ▸ hashFrequency_of_ref hq href)
  have hzero (href : bitsOf q.param 15 8 ≠ 0) : f = 0 ↔ bitsOf q.param 23 16 = 0 :=
    hfreq ▸ preFreqOf_div_eq_zero_iff href _
  refine ⟨rfl, fun href => exec_faultedBy hf ?_, fun href hfb => exec_faultedBy hf ?_,
    fun href hfb hv hm => exec_faultedBy hf ?_, fun href hfb hv hm => exec_answered hf ?_,
    fun href hfb hv => exec_answered hf ?_⟩
  · exact nonceRolldur_op_of_undefined (hashFrequency_of_ref_zero hq href)
  · rw [hop href, if_pos ((hzero href).mpr hfb)]
  · rw [hop href, if_neg (mt (hzero href).mp hfb), if_pos ⟨hv, hm⟩]
  · rw [hop href, if_neg (mt (hzero href).mp hfb), if_neg (mt And.right hm), rollingBits_of_on hfit hv]
  · rw [hop href, if_neg (mt (hzero href).mp hfb), if_neg (by simp [hv]), rollingBits_of_off hv]

/-- A duration that NONCE.ROLLDUR answers is the space over the hash frequency, which is positive. -/
theorem duration_of_nonceRolldur (hf : s.fault = none) (hq : s.plls[0]? = some q)
    (hfreq : preFreqOf q.param / ((q.od[(0 : Tap)]).toNat + 1) = f) (hx : exec .nonceRolldur s = .next u)
    (hr : u.response = some (.result (.duration x))) : 0 < f ∧ x = 2 ^ rollingBits s / (f * 1000000) := by
  have hans := Option.some.inj ((exec_response hf hx).symm.trans hr)
  by_cases href : bitsOf q.param 15 8 = 0
  · rw [nonceRolldur_op_of_undefined (hashFrequency_of_ref_zero hq href)] at hans
    cases hans
  · rw [nonceRolldur_op (hashFrequency_of_ref hq href), hfreq] at hans
    split at hans
    · cases hans
    · split at hans
      · cases hans
      · cases hans
        exact ⟨(hfreq ▸ preFreqOf_div_nonneg _ _ : 0 ≤ f).lt_of_ne' ‹_›, rfl⟩

/-- Settles O41: the space is positive and the same in both states, and the frequency divides it. -/
theorem rollingDurationFallsAsFrequencyRises : Obligations.RollingDurationFallsAsFrequencyRises := by
  intro s s' u u' q q' x x' hc hv hm hq hq' hx hx' hr hr' hf hf'
  obtain ⟨hpos, rfl⟩ := duration_of_nonceRolldur hf hq rfl hx hr
  obtain ⟨-, rfl⟩ := duration_of_nonceRolldur hf' hq' rfl hx' hr'
  have hbits : rollingBits s' = rollingBits s := by rw [rollingBits, hc, hv, hm, rollingBits]
  refine ⟨by positivity, fun hlt => ?_⟩
  rw [hbits]
  exact div_lt_div_of_pos_left (by positivity) (by positivity) (by linarith)

end Sys2Proof.Proofs
end

section
/-!
PROOFS of the statements about the chip operations: version rolling, the hash rate, and the ramp, whose loop is
followed step by step through the frequencies R164 lists (42_chip_and_ramp.md R160 to R168).
-/
namespace Sys2Proof.Proofs

open Sys2Proof.Machine Sys2Proof.Laws

variable {s : State} {q : Pll} {m : U32} {f start target tol : Rat} {k : Nat}

/-! ## Version rolling -/

theorem chipVrenable_op_of_unsupported (hv : s.cfg.supportsVr = false) :
    opOf (.chipVrenable m) s = .raised .versionRollingUnsupported none s := if_pos (by simp [hv])

theorem chipVrenable_op_of_zero (hv : s.cfg.supportsVr = true) :
    opOf (.chipVrenable 0) s = .raised .zeroVersionMask none s := (if_neg (by simp [hv])).trans (if_pos rfl)

theorem chipVrenable_op_of_mask (hv : s.cfg.supportsVr = true) (hm : m ≠ 0) :
    opOf (.chipVrenable m) s = .done .ok (setVersionRolling s m) := (if_neg (by simp [hv])).trans (if_neg hm)

/-- Settles O43: the generation is checked before the mask, and both before the write. -/
theorem vrEnableSetsModeAndMask : Obligations.VrEnableSetsModeAndMask :=
  fun _ _ hf => ⟨rfl, fun hv hm => exec_of_done hf (chipVrenable_op_of_mask hv hm),
    fun hv hm => hm ▸ exec_faultedBy hf (chipVrenable_op_of_zero hv),
    fun hv => exec_faultedBy hf (chipVrenable_op_of_unsupported hv)⟩

/-! ## The hash rate -/

theorem withHashFrequency_of_some {h : Rat → OpEnd} (hh : hashFrequency s = some f) :
    withHashFrequency s h = h f := by simp [withHashFrequency, hh]

theorem withHashFrequency_of_none {h : Rat → OpEnd} (hh : hashFrequency s = none) :
    withHashFrequency s h = .raised .divideByZero none s := by simp [withHashFrequency, hh]

theorem hertz_eq (f : Rat) : hertz f = f * 1000000 := by norm_num [hertz]

/-- Settles O45: the hash frequency is that of PLL 0 tap 0, which ref 0 leaves undefined. -/
theorem hashRateIsHashFrequencyTimesSmallCores : Obligations.HashRateIsHashFrequencyTimesSmallCores := by
  intro s q hf hq
  refine ⟨rfl, fun href => exec_answered hf ?_, fun href => exec_faultedBy hf ?_⟩
  · rw [← hertz_eq]
    exact withHashFrequency_of_some (hashFrequency_of_ref hq href)
  · exact withHashFrequency_of_none (hashFrequency_of_ref_zero hq href)

/-! ## The frequencies of a ramp -/

/-- A step is 6.25 MHz above the one before it, clamped to the target (R163). -/
theorem rampFreq_eq_min (start target : Rat) (k : Nat) :
    rampFreq start target k = min (start + 25 / 4 * k + 25 / 4) target := by
  rw [min_def_lt, rampFreq, show start + 25 / 4 * k + 25 / 4 = start + 25 / 4 * (k + 1) by ring]

/-- The frequencies of a ramp do not fall. -/
theorem rampFreq_mono (start target : Rat) : Monotone (rampFreq start target) := by
  intro j k hjk
  have hjk' : (j : Rat) ≤ k := by exact_mod_cast hjk
  rw [rampFreq_eq_min, rampFreq_eq_min]
  exact min_le_min_right _ (by linarith)

theorem rampCount_pos (start target : Rat) : 0 < rampCount start target := by
  unfold rampCount
  split
  · exact Nat.one_pos
  · rw [Int.ceil_toNat, Nat.ceil_pos]
    have : 25 / 4 < target - start := by linarith
    positivity

/-- A ramp goes on after step `k` exactly where that step is below the target (R164). -/
theorem succ_lt_rampCount_iff : k + 1 < rampCount start target ↔ start + 25 / 4 * k + 25 / 4 < target := by
  have hk : (0 : Rat) ≤ k := k.cast_nonneg
  unfold rampCount
  split
  · refine iff_of_false (by omega) ?_
    linarith
  · rw [Int.ceil_toNat, Nat.lt_ceil, lt_div_iff₀ (by norm_num)]
    push_cast
    constructor <;> intro h <;> linarith

theorem rampFreq_of_not_last (h : k + 1 < rampCount start target) :
    rampFreq start target k = start + 25 / 4 * k + 25 / 4 := by
  rw [rampFreq_eq_min, min_eq_left (succ_lt_rampCount_iff.mp h).le]

/-- The last step of a ramp is at the target. -/
theorem rampFreq_of_last (h : rampCount start target ≤ k + 1) : rampFreq start target k = target := by
  rw [rampFreq_eq_min, min_eq_right (not_lt.mp (mt succ_lt_rampCount_iff.mpr (by omega)))]

/-! ## The delays of a ramp -/

/-- The long-delay flag before step `k`: whether the count of steps above 380 MHz so far is odd (R163, R165). -/
def rampLong (start target : Rat) (k : Nat) : Bool :=
  decide (((List.range k).countP fun j => decide (380 < rampFreq start target j)) % 2 = 1)

/-- A step above 380 MHz turns the flag over (R163). -/
theorem rampLong_succ (start target : Rat) (k : Nat) : rampLong start target (k + 1) =
    if 380 < rampFreq start target k then !rampLong start target k else rampLong start target k := by
  simp only [rampLong, List.range_succ, List.countP_append, List.countP_singleton, decide_eq_true_eq]
  split
  · rw [← decide_not, decide_eq_decide]
    omega
  · rfl

/-- The flag is not set at 380 MHz or below, no step so far being higher. -/
theorem rampLong_of_le (h : rampFreq start target k ≤ 380) : rampLong start target (k + 1) = false := by
  have hnone : ((List.range (k + 1)).countP fun j => decide (380 < rampFreq start target j)) = 0 := by
    refine List.countP_eq_zero.mpr fun j hj => ?_
    have hjk : j ≤ k := Nat.lt_succ_iff.mp (List.mem_range.mp hj)
    simpa using (rampFreq_mono start target hjk).trans h
  rw [rampLong, hnone]
  rfl

/-- The flag after a step gives the step's delay (R165). -/
theorem rampDelay_eq (start target : Rat) (k : Nat) :
    rampDelay start target k = if rampLong start target (k + 1) then 2300 else 400 := by
  unfold rampDelay
  split
  next h => rw [rampLong_of_le h]; rfl
  next => simp only [rampLong, decide_eq_true_eq]

/-! ## The loop of a ramp -/

/-- Step `k` of a ramp as R164 and R165 list it. -/
def rampStepAt (start target tol : Rat) (k : Nat) : RampStep :=
  ⟨searchWord (rampFreq start target k) tol, rampDelay start target k⟩

/-- The state after the first `k` steps of a ramp from `s`: the last of them has left its word in the hash PLL. -/
def stateAfterSteps (s : State) (start target tol : Rat) : Nat → State
  | 0 => s
  | k + 1 => setParam s 0 (searchWord (rampFreq start target k) tol)

/-- A step's word takes the place of the one before it. -/
theorem setParam_stateAfterSteps (s : State) (start target tol : Rat) (k : Nat) :
    setParam (stateAfterSteps s start target tol k) 0 (searchWord (rampFreq start target k) tol) =
      stateAfterSteps s start target tol (k + 1) := by
  cases k with
  | zero => rfl
  | succ k => exact setParam_setParam s 0 _ _

theorem searchWord_of_some {d : Dividers} (h : search f tol = some d) : searchWord f tol = pack d := by
  rw [searchWord, h]

/-- The loop of R163 about to make step `k`, with `room` steps left of CMD_CAP. -/
def rampLoopAt (s : State) (start target tol : Rat) (room k : Nat) : OpEnd :=
  rampLoop target tol room (start + 25 / 4 * k) (rampLong start target k)
    ((List.range k).map (rampStepAt start target tol)) (stateAfterSteps s start target tol k)

theorem rampLoopAt_zero (s : State) (start target tol : Rat) (room : Nat) :
    rampLoopAt s start target tol room 0 = rampLoop target tol room start false [] s := by
  simp [rampLoopAt, rampLong, stateAfterSteps]

/-- What a step with a candidate appends to the steps before it. -/
theorem range_map_rampStepAt_succ {d : Dividers} (h : search (rampFreq start target k) tol = some d) :
    (List.range (k + 1)).map (rampStepAt start target tol) = (List.range k).map (rampStepAt start target tol) ++
      [⟨pack d, if (if 380 < rampFreq start target k then !rampLong start target k else rampLong start target k)
        then 2300 else 400⟩] := by
  rw [List.range_succ, List.map_append, List.map_singleton, rampStepAt, searchWord_of_some h, rampDelay_eq,
    rampLong_succ]

/-- A step that has a candidate and is not the last goes on to the next. -/
theorem rampLoopAt_succ {room : Nat} (hk : k + 1 < rampCount start target)
    (hd : search (rampFreq start target k) tol ≠ none) :
    rampLoopAt s start target tol (room + 1) k = rampLoopAt s start target tol room (k + 1) := by
  obtain ⟨d, hd⟩ := Option.ne_none_iff_exists'.mp hd
  have hfreq := rampFreq_of_not_last hk
  have hcur : start + 25 / 4 * k + 25 / 4 = start + 25 / 4 * (k + 1 : Nat) := by push_cast; ring
  rw [rampLoopAt, rampLoop_more (succ_lt_rampCount_iff.mp hk) (hfreq ▸ hd), ← hfreq, ← searchWord_of_some hd,
    setParam_stateAfterSteps, searchWord_of_some hd, ← range_map_rampStepAt_succ hd, ← rampLong_succ, hfreq, hcur,
    rampLoopAt]

/-- The last step, having a candidate, ends the ramp. -/
theorem rampLoopAt_last {room : Nat} (hk : rampCount start target = k + 1)
    (hd : search (rampFreq start target k) tol ≠ none) :
    rampLoopAt s start target tol (room + 1) k =
      .done (.rampSteps ((List.range (k + 1)).map (rampStepAt start target tol)))
        (stateAfterSteps s start target tol (k + 1)) := by
  obtain ⟨d, hd⟩ := Option.ne_none_iff_exists'.mp hd
  have hfreq := rampFreq_of_last hk.le
  have hle : target ≤ start + 25 / 4 * k + 25 / 4 := not_lt.mp (mt succ_lt_rampCount_iff.mpr (by omega))
  rw [rampLoopAt, rampLoop_last hle (hfreq ▸ hd), range_map_rampStepAt_succ hd, ← setParam_stateAfterSteps,
    searchWord_of_some hd, hfreq]

/-- The loop makes the steps of R164 one after the other, as long as each has a candidate and none is the last. -/
theorem rampLoop_reaches (s : State) (room : Nat) (hk : k < rampCount start target)
    (hd : ∀ j < k, search (rampFreq start target j) tol ≠ none) :
    rampLoop target tol (k + room) start false [] s = rampLoopAt s start target tol room k := by
  induction k generalizing room with
  | zero => rw [rampLoopAt_zero, Nat.zero_add]
  | succ k ih =>
    rw [Nat.add_right_comm, Nat.add_assoc, ih (room + 1) (by omega) fun j hj => hd j (by omega),
      rampLoopAt_succ hk (hd k (by omega))]

/-- CHIP.RAMP at a defined hash frequency runs the loop from there (R163). -/
theorem chipRamp_op (hq : s.plls[0]? = some q) (href : bitsOf q.param 15 8 ≠ 0)
    (hstart : start = preFreqOf q.param / ((q.od[(0 : Tap)]).toNat + 1)) (f : Rat) :
    opOf (.chipRamp f) s = rampLoop f s.cfg.rampTol s.cfg.cmdCap start false [] s :=
  hstart ▸ withHashFrequency_of_some (hashFrequency_of_ref hq href)

/-- Settles O47: the loop makes every step but the last, and then the last, which is at the target. -/
theorem rampReturnsEveryStep : Obligations.RampReturnsEveryStep := by
  rintro s q f start n hf hq href hstart rfl hcap hd
  obtain ⟨k, hk⟩ := Nat.exists_eq_add_one.mpr (rampCount_pos start f)
  obtain ⟨room, hroom⟩ := Nat.exists_eq_add_of_le (hk ▸ hcap)
  have hop : opOf (.chipRamp f) s = .done
      (.rampSteps ((List.range (k + 1)).map (rampStepAt start f s.cfg.rampTol)))
      (stateAfterSteps s start f s.cfg.rampTol (k + 1)) := by
    rw [chipRamp_op hq href hstart, hroom, Nat.add_assoc, Nat.add_comm 1 room,
      rampLoop_reaches s (room + 1) (by omega) fun j hj => hd j (by omega), rampLoopAt_last hk (hd k (by omega))]
  rw [exec_of_done hf hop, stateAfterSteps, rampFreq_of_last hk.le, setParam_eq_set hq, hk]
  rfl

/-! ## The ramp from 50 to 75 MHz -/

/-- A candidate that achieves the target exactly is accepted at every tolerance above 0 or at none. -/
theorem accept_congr_of_exact {tol' : Rat} {d : Dividers} (hx : achieved d = target) (htol : 0 < tol)
    (htol' : 0 < tol') : accept target tol d = accept target tol' d := by
  simp [accept, hx, htol, htol']

/-- Where an exact candidate is accepted at some tolerance the search finds one at every tolerance above 0. -/
theorem search_ne_none_of_exact {tol' : Rat} {c : Nat × Nat × Nat} (hc : c ∈ visitOrder)
    (hx : achieved (candidate target c) = target) (htol' : 0 < tol')
    (ha : accept target tol' (candidate target c) = true) (htol : 0 < tol) : search target tol ≠ none := by
  intro h
  refine search_eq_none_iff.mp h _ (acceptedCandidate_iff.mpr ⟨c, hc, rfl, ?_⟩)
  rw [accept_congr_of_exact hx htol htol', ha]

/-- Where every candidate is exact the search gives the same at every tolerance above 0. -/
theorem search_congr_of_exact {tol' : Rat} (hx : ∀ c ∈ visitOrder, achieved (candidate target c) = target)
    (htol : 0 < tol) (htol' : 0 < tol') : search target tol = search target tol' := by
  refine List.foldl_ext _ _ _ fun best c hc => ?_
  rw [consider, consider, accept_congr_of_exact (hx c hc) htol htol']

/-- 75 MHz is 3 times F_IN, so every combination reaches it with a whole feedback divider. -/
theorem searchWord_75 (htol : 0 < tol) : searchWord 75 tol = 0xC0A80263 := by
  have hx : ∀ c ∈ visitOrder, achieved (candidate 75 c) = 75 := by decide +kernel
  have hone : searchWord 75 1 = 0xC0A80263 := by decide +kernel
  rwa [searchWord, search_congr_of_exact hx one_pos htol] at hone

/-- At D = 72 the four steps from 50 to 75 MHz are exact, with feedback dividers 162, 180, 198 and 216. -/
theorem rampFreq_50_75_exact : ∀ k < 4,
    achieved (candidate (rampFreq 50 75 k) (2, 6, 6)) = rampFreq 50 75 k ∧
    accept (rampFreq 50 75 k) 1 (candidate (rampFreq 50 75 k) (2, 6, 6)) = true := by
  decide +kernel

theorem rampSteps_50_75 (htol : 0 < tol) : (List.range 4).map (rampStepAt 50 75 tol) =
    [⟨searchWord (225 / 4) tol, 400⟩, ⟨searchWord (125 / 2) tol, 400⟩, ⟨searchWord (275 / 4) tol, 400⟩,
      ⟨0xC0A80263, 400⟩] := by
  have hfreq : (List.range 4).map (fun k => (rampFreq 50 75 k, rampDelay 50 75 k)) =
      [(225 / 4, 400), (125 / 2, 400), (275 / 4, 400), (75, 400)] := by decide +kernel
  have hsteps := congrArg (List.map fun p : Rat × Nat => RampStep.mk (searchWord p.1 tol) p.2) hfreq
  rw [List.map_map] at hsteps
  exact searchWord_75 htol ▸ hsteps

/-- Settles O50: each of the four steps has an exact candidate, and every candidate of the last is exact. -/
theorem rampFrom50To75HasFourSteps : Obligations.RampFrom50To75HasFourSteps := by
  intro s q hf hq href hstart htol hcap
  have hcount : 4 = rampCount 50 75 := by decide +kernel
  have hd (k : Nat) (hk : k < 4) : search (rampFreq 50 75 k) s.cfg.rampTol ≠ none := by
    obtain ⟨hx, ha⟩ := rampFreq_50_75_exact k hk
    exact search_ne_none_of_exact (mem_visitOrder.mpr (by decide)) hx one_pos ha htol
  rw [rampReturnsEveryStep s q 75 50 4 hf hq href hstart.symm hcount hcap hd, searchWord_75 htol,
    ← rampSteps_50_75 htol]
  rfl

end Sys2Proof.Proofs
end

section
/-!
PROOFS of the statements about faults: what a fault records, what a faulting operation writes, where a ramp stops, and
that a faulted block repeats its record (60_exceptions.md R200 to R205).
-/
namespace Sys2Proof.Proofs

open Sys2Proof.Machine Sys2Proof.Laws

variable {i : Instr} {s t u : State} {q : Pll} {start target tol : Rat} {k : Nat}

/-! ## The record of a fault -/

/-- An instruction that leaves a fault record in a block that had none raised that fault under its own record. -/
theorem exec_raised_of_fault {r : FaultRecord} (hf : s.fault = none) (hx : exec i s = .next u)
    (hu : u.fault = some r) : ∃ c d t, opOf i s = .raised c d t ∧ r = ⟨c, encode i, d⟩ ∧ u = takeFault t r := by
  rcases exec_cases hx with ⟨r', hr', -⟩ | ⟨-, a, t, ho, rfl⟩ | ⟨-, c, d, t, ho, rfl⟩
  · cases hf.symm.trans hr'
  · have he := opOf_effect i s
    rw [ho] at he
    cases hf.symm.trans ((effect_fault he).symm.trans hu)
  · cases hu
    exact ⟨c, d, t, ho, rfl, rfl⟩

/-- Settles O11: the fault is taken with the instruction's record, and only a ramp raises one with a detail. -/
theorem faultRecordsItsOperation : Obligations.FaultRecordsItsOperation := by
  intro i s u r hf hx hu
  obtain ⟨c, d, t, ho, rfl, rfl⟩ := exec_raised_of_fault hf hx hu
  refine ⟨rfl, rfl, fun hi => ?_⟩
  by_contra hd
  obtain ⟨f, hramp⟩ := ramp_of_raisable_detail (raisable_of_opOf ho) hd
  exact hi f hramp

/-! ## Precise faults -/

/-- A PLL operation that raises a fault has written nothing. -/
theorem eq_of_raised_of_pllOperand {p : U8} {c : FaultCode} {d : Option Rat} (hi : pllOperand i = some p)
    (h : opOf i s = .raised c d t) : t = s := by
  rcases Nat.lt_or_ge p.toNat s.plls.length with hp | hp
  · have hq := List.getElem?_eq_getElem hp
    rcases opOf_actsOn hi s.plls[p.toNat] with ⟨c', d', h'⟩ | ⟨r, q', h'⟩
    · cases h.symm.trans (h' s hq)
      rfl
    · cases h.symm.trans (h' s hq)
  · cases h.symm.trans (opOf_of_pll_ge hi hp)
    rfl

/-- CHIP.VRENABLE that raises a fault has written nothing (R160). -/
theorem eq_of_raised_of_chipVrenable {m : U32} {c : FaultCode} {d : Option Rat}
    (h : opOf (.chipVrenable m) s = .raised c d t) : t = s := by
  cases hv : s.cfg.supportsVr with
  | false =>
    cases h.symm.trans (chipVrenable_op_of_unsupported hv)
    rfl
  | true =>
    by_cases hm : m = 0
    · subst hm
      cases h.symm.trans (chipVrenable_op_of_zero hv)
      rfl
    · cases h.symm.trans (chipVrenable_op_of_mask hv hm)

/-- An operation other than CHIP.RAMP that raises a fault has written nothing: it acts on one PLL, or is read-only, or
is CHIP.VRENABLE (R204). -/
theorem eq_of_raised {c : FaultCode} {d : Option Rat} (hi : ∀ f, i ≠ .chipRamp f) (h : opOf i s = .raised c d t) :
    t = s := by
  cases hp : pllOperand i with
  | some p => exact eq_of_raised_of_pllOperand hp h
  | none =>
    cases hr : readOnly i with
    | true =>
      have he := opOf_effect i s
      rw [h] at he
      exact effect_of_readOnly he hr
    | false =>
      cases i with
      | chipVrenable m => exact eq_of_raised_of_chipVrenable h
      | chipRamp f => exact absurd rfl (hi f)
      | _ => cases hp <;> cases hr

/-- Settles O12: the fault is taken in the state the operation left, which is the state it was presented to. -/
theorem faultsArePreciseExceptInRamp : Obligations.FaultsArePreciseExceptInRamp := by
  intro i s u r hi hf hx hu
  obtain ⟨c, d, t, ho, -, rfl⟩ := exec_raised_of_fault hf hx hu
  rw [eq_of_raised hi ho]
  rfl

/-! ## Where a ramp stops -/

/-- The state after `k` steps of a ramp: untouched before the first, and then with the word of the last step made. -/
theorem stateAfterSteps_eq (hq : s.plls[0]? = some q) (k : Nat) : stateAfterSteps s start target tol k =
    if k = 0 then s else s.wroteHashWord q (searchWord (rampFreq start target (k - 1)) tol) := by
  cases k with
  | zero => rfl
  | succ k => exact setParam_eq_set hq

/-- A step without a candidate ends the ramp, the words before it written (R205). -/
theorem rampLoopAt_gap {room : Nat} (h : search (rampFreq start target k) tol = none) :
    rampLoopAt s start target tol (room + 1) k =
      .raised .noDividerFound (some (rampFreq start target k)) (stateAfterSteps s start target tol k) := by
  rw [rampFreq_eq_min] at h ⊢
  exact rampLoop_gap h

/-- A ramp out of its capacity before its last step ends at the frequency of the step it made last (R205). -/
theorem rampLoopAt_full (hk : k + 1 < rampCount start target) :
    rampLoopAt s start target tol 0 (k + 1) =
      .raised .capacityExceeded (some (rampFreq start target k)) (stateAfterSteps s start target tol (k + 1)) := by
  have hcur : start + 25 / 4 * (k + 1 : Nat) = rampFreq start target k := by
    rw [rampFreq_of_not_last hk]
    push_cast
    ring
  rw [rampLoopAt, hcur, rampLoop_full]

/-- Settles O48: the loop makes the `k` steps before the gap, and the next has no candidate. -/
theorem rampStopsAtAStepWithoutCandidate : Obligations.RampStopsAtAStepWithoutCandidate := by
  intro s q f start k hf hq href hstart hk hcap hd hgap
  obtain ⟨room, hroom⟩ := Nat.exists_eq_add_of_lt hcap
  have hop : opOf (.chipRamp f) s = .raised .noDividerFound (some (rampFreq start f k))
      (stateAfterSteps s start f s.cfg.rampTol k) := by
    rw [chipRamp_op hq href hstart, hroom, Nat.add_assoc, rampLoop_reaches s (room + 1) hk hd, rampLoopAt_gap hgap]
  rw [exec_of_raised hf hop, stateAfterSteps_eq hq]
  rfl

/-- Settles O49: the loop makes CMD_CAP steps, none of them the last, and has no room for the next. -/
theorem rampStopsAtItsCapacity : Obligations.RampStopsAtItsCapacity := by
  intro s q f start hf hq href hstart hpos hcap hd
  obtain ⟨n, hn⟩ := Nat.exists_eq_add_one.mpr hpos
  have hop : opOf (.chipRamp f) s = .raised .capacityExceeded (some (rampFreq start f n))
      (stateAfterSteps s start f s.cfg.rampTol (n + 1)) := by
    rw [chipRamp_op hq href hstart, ← rampLoopAt_full (hn ▸ hcap), ← hn]
    exact rampLoop_reaches s 0 hcap hd
  rw [exec_of_raised hf hop, stateAfterSteps_eq hq, hn]
  rfl

/-! ## The sticky record and the codes -/

/-- Settles O10: an operation and an illegal opcode are both transactions, which a faulted block refuses. -/
theorem faultIsStickyAndItsRecordIsRepeated : Obligations.FaultIsStickyAndItsRecordIsRepeated := by
  intro s r hf
  refine ⟨fun i => exec_of_fault hf, fun rec rest hp hd => ?_⟩
  rw [step_of_pending hp]
  cases hdec : decode rec with
  | op i => exact exec_of_fault hf
  | illegalOpcode => exact transact_of_fault hf
  | malformed => exact absurd hdec hd

/-- Settles O55: the numbers of the table of R201, in its order. -/
theorem faultCodesAreNumberedOneToNine : Obligations.FaultCodesAreNumberedOneToNine := rfl

end Sys2Proof.Proofs
end

section
/-!
PROOFS of the statements about construction and about the hazard of a ramp asked again: the first ramp leaves the hash
PLL less than a step below its target, from where the second has one step to make (70_reset_and_hazards.md R230, R231,
R234).
-/
namespace Sys2Proof.Proofs

open Sys2Proof.Machine Sys2Proof.Laws

variable {s u : State} {q : Pll} {target tol cur f : Rat} {room : Nat} {d : Dividers} {r : Result}

/-! ## Construction -/

/-- Settles O2: the clock is compared with F_IN and with nothing else. -/
theorem constructionNeedsThe25MHzClock : Obligations.ConstructionNeedsThe25MHzClock :=
  fun _ _ => ⟨fun h => if_pos h, fun h => if_neg h⟩

/-! ## A ramp asked again -/

/-- A ramp's loop that ends with a result had room for a step, and its last search, whose word it leaves, was for the
target (R163, R164). -/
theorem rampLoop_done_at_target {t : State} {long : Bool} {steps : List RampStep}
    (h : rampLoop target tol room cur long steps s = .done r t) :
    room ≠ 0 ∧ ∃ d, search target tol = some d ∧ t = setParam s 0 (pack d) := by
  induction room generalizing cur long steps s with
  | zero => cases h
  | succ room ih =>
    refine ⟨room.succ_ne_zero, ?_⟩
    cases hd : search (min (cur + 25 / 4) target) tol with
    | none => cases (rampLoop_gap hd).symm.trans h
    | some d =>
      rcases le_or_gt target (cur + 25 / 4) with hle | hlt
      · rw [min_eq_right hle] at hd
        cases (rampLoop_last hle hd).symm.trans h
        exact ⟨d, hd, rfl⟩
      · rw [min_eq_left hlt.le] at hd
        obtain ⟨-, d', hd', rfl⟩ := ih ((rampLoop_more hlt hd).symm.trans h)
        exact ⟨d', hd', setParam_setParam s 0 _ _⟩

/-- A ramp that did not fault had a capacity of at least a step, and left the word of the search for its target. -/
theorem exec_chipRamp_of_no_fault (hx : exec (.chipRamp f) s = .next u) (hu : u.fault = none) :
    s.cfg.cmdCap ≠ 0 ∧ ∃ d r, search f s.cfg.rampTol = some d ∧ u = respond (setParam s 0 (pack d)) (.result r) := by
  obtain ⟨-, r, t, ho, rfl⟩ := exec_done_of_no_fault hx hu
  rcases withHashFrequency_cases s _ with ⟨-, e⟩ | ⟨start, -, e⟩
  · cases e.symm.trans ho
  · obtain ⟨hcap, d, hd, rfl⟩ := rampLoop_done_at_target (e.symm.trans ho)
    exact ⟨hcap, d, r, hd, rfl⟩

/-- A ramp whose target is no more than a step away returns one step, short at 380 MHz or below and long above
(R164, R165). -/
theorem rampLoop_one_step (hroom : room ≠ 0) (hle : target ≤ cur + 25 / 4) (hd : search target tol = some d) :
    rampLoop target tol room cur false [] s =
      .done (.rampSteps [⟨searchWord target tol, if target ≤ 380 then 400 else 2300⟩]) (setParam s 0 (pack d)) := by
  obtain ⟨room, rfl⟩ := Nat.exists_eq_succ_of_ne_zero hroom
  rw [rampLoop_last hle hd, searchWord_of_some hd]
  rcases le_or_gt target 380 with h | h
  · simp [h, not_lt.mpr h]
  · simp [h, not_le.mpr h]

/-- A search within a tolerance of at most a step achieves no more than a step below its target (R105). -/
theorem target_le_achieved_add_step (hd : search target tol = some d) (htol : tol ≤ 25 / 4) :
    target ≤ achieved d + 25 / 4 := by
  obtain ⟨-, -, -, -, -, -, herr⟩ := search_bounds hd
  obtain ⟨-, hlt⟩ := abs_lt.mp herr
  linarith

/-- A search's word in the hash PLL, whose hash tap does not divide, makes what the search achieved the hash frequency
(R101, R162). -/
theorem hashFrequency_setParam_of_search (hq : s.plls[0]? = some q) (hod : (q.od[(0 : Tap)]).toNat = 0)
    (hd : search target tol = some d) : hashFrequency (setParam s 0 (pack d)) = some (achieved d) := by
  have hq' : (setParam s 0 (pack d)).plls[0]? = some { q with param := pack d } := by simp [hq]
  obtain ⟨-, -, eref, -, -⟩ := fields_of_search hd
  obtain ⟨href, -⟩ := search_bounds hd
  rw [hashFrequency_of_ref hq' (by dsimp only; omega), preFreqOf_of_search hd, hod]
  simp

/-- Settles O51: the word left is that of the search for the target, so the same ramp has one step to make, and makes
it with the word that stands there. -/
theorem rampAskedAgainIsOneStep : Obligations.RampAskedAgainIsOneStep := by
  intro s u q f _ hq hod htol hx hu
  obtain ⟨hcap, d, r, hd, rfl⟩ := exec_chipRamp_of_no_fault hx hu
  have hhash : hashFrequency (respond (setParam s 0 (pack d)) (.result r)) = some (achieved d) :=
    hashFrequency_setParam_of_search hq hod hd
  have hsame : setParam (respond (setParam s 0 (pack d)) (.result r)) 0 (pack d) =
      respond (setParam s 0 (pack d)) (.result r) :=
    congrArg (respond · (.result r)) (setParam_setParam s 0 (pack d) (pack d))
  have hstep := rampLoop_one_step (s := respond (setParam s 0 (pack d)) (.result r)) hcap
    (target_le_achieved_add_step hd htol) hd
  rw [hsame] at hstep
  exact exec_of_done hu ((withHashFrequency_of_some hhash).trans hstep)

end Sys2Proof.Proofs
end
